-- ==== Sys2Proof/Word.lean ====
section
/-! DEFINITION. Bytes and words (00_scope.md R6, R9): all values are unsigned. They are the units that the command
formats (30_encoding.md R54) and the bus carry; the widths that R5 leaves to the machine are fields of `Params`
(Config.lean). -/
namespace Sys2Proof

/-- A byte: 8 bits (R9). A register pointer and a length operand are bytes. -/
abbrev Byte := BitVec 8

/-- A word: 16 bits (R9), a 16-bit operand of a command (R54). -/
abbrev Word := BitVec 16

/-- A device bus address, held in the low bits of a byte (R9): how many bits it has is `BUS_ADDR_WIDTH`. -/
abbrev BusAddr := Byte

/-- `w[15:8]`. -/
def Word.hi (w : Word) : Byte := w.extractLsb' 8 8

/-- `w[7:0]`. -/
def Word.lo (w : Word) : Byte := w.extractLsb' 0 8

/-- `{a, b}`: the word whose high byte is `a` and whose low byte is `b` (R6). -/
def Word.ofBytes (a b : Byte) : Word := a ++ b

end Sys2Proof
end

