-- ==== Sys2Proof/Config.lean ====
section
/-! DEFINITION. What an implementation of the block fixes (00_scope.md R5) and the free values: the
draws of 00_scope.md R8, which no rule gives a value. -/
namespace Sys2Proof

/-- `WIRE_ORDER` (20_memory.md R40): which byte of a 16-bit register is on the bus first. -/
inductive WireOrder where
  | msbFirst
  | lsbFirst
  deriving DecidableEq, Repr

/-- `SHORT_READ_POLICY` (41_register_access.md R75, D8). -/
inductive ShortReadPolicy where
  | tolerate
  | commError
  deriving DecidableEq, Repr

/-- The twelve parameters of R5. They are fixed for a machine: `State` carries them so that a statement about every
state holds for every value of them, and no step writes them. What a width other than R5's does is log 2's. -/
structure Params where
  /-- `REG_WIDTH`: the width in bits of every device register, as it travels on the bus (R40, R63). -/
  regWidth : Nat
  /-- `BUS_ADDR_WIDTH`: the width of a device bus address (R9, R34). -/
  busAddrWidth : Nat
  /-- `PTR_WIDTH`: the width of the register-address byte (R9, R33). -/
  ptrWidth : Nat
  /-- `FIELD_IN_WIDTH`: the width of each field input of an encode command (R61, D15). -/
  fieldInWidth : Nat
  /-- `ADDR_BASE` (R34): the fixed high bits of the device address. -/
  addrBase : Byte
  /-- `ADDR_SEL_MASK` (R34): the address bits kept from the raw input. -/
  addrSelMask : Byte
  /-- `WIRE_ORDER` (R40, D3). -/
  wireOrder : WireOrder
  /-- `MFR_ID_EXPECTED` (R80, D5). -/
  mfrIdExpected : Word
  /-- `SOFT_CONFIG_RESET` (R14, R108, D6). -/
  softConfigReset : Word
  /-- `LUX_SCALE` (R71, D9, C3): an exact rational. -/
  luxScale : Rat
  /-- `SHORT_READ_POLICY` (R75, D8). -/
  shortReadPolicy : ShortReadPolicy
  /-- `MAX_XFER_LEN` (R41, R57, D17): the largest data length of a generic register command; a length operand is
  a byte (R9). -/
  maxXferLen : Byte
  deriving DecidableEq, Repr

/-- One answer of the Transport Adapter (R37), whichever primitive it answers: `exc` is the exception
mark, and where it is false a call takes the one component its primitive returns: `status` for
`T.end`, `avail` for `T.avail`, `byte` for `T.readByte`. The handle of `T.begin` and the `ok` of
`T.write` are ignored by the block (D12, D36) and have no component. -/
structure Answer where
  exc    : Bool
  status : Byte
  avail  : Nat
  byte   : Byte
  deriving DecidableEq, Repr, Inhabited

namespace Config

/-- FREE VALUE (log 3). `SOFT_CONFIG_RESET`: the spec leaves it OPEN and chooses no value (D6); a claim
must hold for every value. -/
opaque softConfigReset : Word

/-- FREE VALUE (log 4). The answer to the `n`-th transport call where none is laid ready in
`State.script` (R38: an oracle answer, bound by no law). -/
opaque freeAnswer : Nat → Answer

/-- FREE VALUE (log 4). The `n`-th drawn byte of a read buffer (R31, R75: a buffer byte that no received
byte filled is a draw). -/
opaque freeByte : Nat → Byte

/-- FREE VALUE (log 8). What the `dev_addr` output carries while `dev_addr_valid = 0` (R53 gives no
value). -/
opaque devAddrWhileInvalid : BusAddr

/-- `MODE_CONTINUOUS` (R25, D4; the code is general knowledge G6, for naming only). -/
def modeContinuous : BitVec 2 := 2

/-- `CT_800MS` (R26, D4; the code is general knowledge G7, for naming only). -/
def ct800ms : BitVec 1 := 1

/-- The values R5 gives its parameters. DESIGN CHOICE of the spec (D3, D5, D6, D8, D9, D17); log 2. -/
def specParams : Params where
  regWidth := 16
  busAddrWidth := 7
  ptrWidth := 8
  fieldInWidth := 16
  addrBase := 0x44
  addrSelMask := 0x03
  wireOrder := .msbFirst
  mfrIdExpected := 0x5449
  softConfigReset := softConfigReset
  luxScale := 6 / 5
  shortReadPolicy := .tolerate
  maxXferLen := 255

end Config
end Sys2Proof
end

