-- ==== Sys2Proof/Syntax.lean ====
section
/-! DEFINITION. The 18 commands of 30_encoding.md R55 with the operands of their formats (R54). -/
namespace Sys2Proof

/-- Eleven field inputs of `k` bits each, in Configuration Word order (R16, R61). -/
structure FieldInputs (k : Nat) where
  fc  : BitVec k
  me  : BitVec k
  pol : BitVec k
  l   : BitVec k
  fl  : BitVec k
  fh  : BitVec k
  crf : BitVec k
  ovf : BitVec k
  m   : BitVec k
  ct  : BitVec k
  rn  : BitVec k
  deriving DecidableEq, Repr

/-- The field inputs of formats CF and CFM: 16-bit operands (R54). -/
abbrev CfgInputs := FieldInputs 16

/-- A command. One constructor per row of the opcode table. -/
inductive Instr where
  /-- ENCODE_CONFIG (R67): opcode 0x01, format CF. -/
  | encodeConfig (f : CfgInputs)
  /-- DECODE_CONFIG (R68): opcode 0x02, format W2; `b0` is the first byte on the bus. -/
  | decodeConfig (b0 b1 : Byte)
  /-- ENCODE_RESULT (R69): opcode 0x03, format RF. -/
  | encodeResult (r e : Word)
  /-- DECODE_RESULT (R70): opcode 0x04, format W2. -/
  | decodeResult (b0 b1 : Byte)
  /-- ILLUMINANCE (R71): opcode 0x05, format RF. -/
  | illuminance (r e : Word)
  /-- WRITE_REGISTER (R76): opcode 0x10, format WR; `len` is the length of `data` (R66). -/
  | writeRegister (reg : Byte) (data : List Byte)
  /-- READ_REGISTER (R77): opcode 0x11, format RD. -/
  | readRegister (reg : Byte) (len : Byte)
  /-- SET_ADDRESS (R79): opcode 0x20, format B. -/
  | setAddress (raw : Byte)
  /-- CHECK_COMMS (R80): opcode 0x21, format N. -/
  | checkComms
  /-- APPLY_CONFIG (R81): opcode 0x22, format N. -/
  | applyConfig
  /-- BEGIN (R82): opcode 0x23, format B. -/
  | beginSession (raw : Byte)
  /-- SET_CONFIG (R83): opcode 0x24, format CFM. -/
  | setConfig (sel : Word) (f : CfgInputs)
  /-- READ_CONFIG (R84): opcode 0x25, format N. -/
  | readConfig
  /-- GET_ILLUMINANCE (R85): opcode 0x26, format N. -/
  | getIlluminance
  /-- GET_HIGH_LIMIT (R86): opcode 0x27, format N. -/
  | getHighLimit
  /-- SET_HIGH_LIMIT (R87): opcode 0x28, format RF. -/
  | setHighLimit (r e : Word)
  /-- GET_LOW_LIMIT (R88): opcode 0x29, format N. -/
  | getLowLimit
  /-- SET_LOW_LIMIT (R89): opcode 0x2A, format RF. -/
  | setLowLimit (r e : Word)
  deriving DecidableEq, Repr

/-- The command formats of R54. -/
inductive Format where
  | N | B | W2 | CF | CFM | RF | WR | RD
  deriving DecidableEq, Repr

end Sys2Proof
end

