-- ==== Sys2Proof/Machine/State.lean ====
section
/-! DEFINITION. The state of the block as plain data (10_state.md R11, R31; 70_reset_and_hazards.md R108),
its events (20_memory.md R38), its responses (30_encoding.md R53, R55) and its reset. -/
namespace Sys2Proof.Machine

/-- The session state (R12). -/
inductive SessState where
  | unstarted
  | addressed
  | verified
  | configured
  deriving DecidableEq, Repr

/-- The status of a response (R93). -/
inductive Status where
  | ok
  | commError
  | identityMismatch
  deriving DecidableEq, Repr

/-- A decoded Configuration Word: the eleven fields of R16, each of its own width. -/
structure CfgFields where
  fc  : BitVec 2
  me  : BitVec 1
  pol : BitVec 1
  l   : BitVec 1
  fl  : BitVec 1
  fh  : BitVec 1
  crf : BitVec 1
  ovf : BitVec 1
  m   : BitVec 2
  ct  : BitVec 1
  rn  : BitVec 4
  deriving DecidableEq, Repr

/-- The payload of a response (R55). A failed command has none (D19). -/
inductive Payload where
  /-- No payload. -/
  | none
  /-- The two bytes of an encode command, in bus order. -/
  | wire (b0 b1 : Byte)
  /-- A Configuration fields record. -/
  | config (f : CfgFields)
  /-- `(reading, exponent)`. -/
  | result (reading : BitVec 12) (exponent : BitVec 4)
  /-- `lux`, an exact rational, and `mant` (R71, R73). -/
  | lux (lux : Rat) (mant : BitVec 27)
  /-- The bytes of READ_REGISTER. -/
  | data (bytes : List Byte)
  deriving DecidableEq, Repr

/-- What a command returns: `return (status, payload)` (R7). -/
structure Response where
  status  : Status
  payload : Payload
  deriving DecidableEq, Repr

/-- The six transport primitives (R37). -/
inductive Primitive where
  | beginTxn
  | write
  | endTxn
  | request
  | avail
  | readByte
  deriving DecidableEq, Repr

/-- One entry of the event history `H` (R38). -/
inductive Event where
  /-- `Begin a` -/
  | beginTxn (a : BusAddr)
  /-- `Write bs`: one event for the whole byte sequence of a transaction (R39). -/
  | write (bs : List Byte)
  /-- `End st` -/
  | endTxn (st : Byte)
  /-- `Request a n` -/
  | request (a : BusAddr) (n : Byte)
  /-- `Avail n` -/
  | avail (n : Nat)
  /-- `ReadByte b` -/
  | readByte (b : Byte)
  /-- `Exc p` -/
  | exc (p : Primitive)
  deriving DecidableEq, Repr

/-- The model fault of R95. -/
inductive ModelFault where
  /-- A command called MemRead or MemWrite while `dev_addr = none`. -/
  | usedBeforeAddressed
  deriving DecidableEq, Repr

/-- Why a step answers a fault. -/
inductive Fault where
  /-- Raised by `step` in a state whose `fault` mark is set: the model takes no further step (R95). SAFE: a
  run the chip completes has no next state here. -/
  | marked (f : ModelFault)
  /-- Raised by `step` where the host presents a command while `busy = 1`: no move (R111, D23, stuck). SAFE
  as a stop of the model; the spec notes that claims then say nothing of a host that breaks this duty. -/
  | presentedWhileBusy
  deriving DecidableEq, Repr

/-- Why a step is refused. -/
inductive Refusal where
  /-- Raised by an arm of `exec` whose command has no meaning yet. SAFE: no next state. No arm raises it. -/
  | notModelled (mnemonic : String)
  /-- Raised by `step` in a state whose `refused` mark is set: later commands have no move (R96). SAFE. -/
  | marked
  deriving DecidableEq, Repr

/-- The state of the block, of the model's records and of its inputs. -/
structure State where
  /-- The implementation parameters (R5); no step writes them. -/
  params : Params
  /-- `sess` (R12). -/
  sess : SessState
  /-- `dev_addr` (R13): `none` until SET_ADDRESS or BEGIN has run; `BUS_ADDR_WIDTH` bits, held in a byte (R9). -/
  devAddr : Option BusAddr
  /-- `soft_cfg` (R14): one canonical Configuration Word. -/
  softCfg : Word
  /-- `busy` (R31, R53): 1 from a command's acceptance until its response. -/
  busy : Bool
  /-- The sticky model fault (R95); never cleared. -/
  fault : Option ModelFault
  /-- The sticky refusal mark (R96); never cleared. -/
  refused : Bool
  /-- Input: the serialised commands the host has still to present, in order (R53, R54; log 5). -/
  port : List (List Byte)
  /-- Record: the responses returned, oldest first (R53, R55; log 6). -/
  responses : List Response
  /-- The event history `H`, oldest first (R38). -/
  hist : List Event
  /-- Input: the transport answers laid ready, in call order (R38; log 4). -/
  script : List Answer
  /-- How many transport calls have been made: the index of `Config.freeAnswer` (log 4). -/
  calls : Nat
  /-- How many buffer bytes have been drawn: the index of `Config.freeByte` (log 4). -/
  draws : Nat
  deriving DecidableEq, Repr

/-- The state after reset, for any parameters (R108). -/
def State.resetWith (p : Params) : State where
  params := p
  sess := .unstarted
  devAddr := none
  softCfg := p.softConfigReset
  busy := false
  fault := none
  refused := false
  port := []
  responses := []
  hist := []
  script := []
  calls := 0
  draws := 0

/-- The state after reset with the spec's parameter values (R108, R5). -/
def State.reset : State := State.resetWith Config.specParams

end Sys2Proof.Machine
end

