-- ==== Sys2Proof/Machine/Operands.lean ====
section
/-! DEFINITION. The operand forms and pure functions of the spec: address normalisation (20_memory.md R34),
wire order (R40), the register map (R36), field inputs (R61), and the pack and unpack functions of both register layouts
(30_encoding.md R58 to R61), with the illuminance formula (40_codec.md R71). -/
namespace Sys2Proof.Machine

/-- `trunc_n(v) = v mod 2^n` (R6), held in as many bits as `v` is. -/
def trunc {k : Nat} (n : Nat) (v : BitVec k) : BitVec k := BitVec.ofNat k (v.toNat % 2 ^ n)

/-- `normAddr(raw) = ADDR_BASE | (raw & ADDR_SEL_MASK)`, an address of `BUS_ADDR_WIDTH` bits (R34, R9). -/
def normAddr (p : Params) (raw : Byte) : BusAddr :=
  trunc p.busAddrWidth (p.addrBase ||| (raw &&& p.addrSelMask))

/-- The register-address byte that is sent for the pointer `reg`: `PTR_WIDTH` bits (R5, R33). -/
def ptrByte (p : Params) (reg : Byte) : Byte := trunc p.ptrWidth reg

/-- The two bytes of a register of `REG_WIDTH` bits, the first on the bus first (R40, R41). -/
def wireBytes (p : Params) (w : Word) : Byte × Byte :=
  let v : Word := trunc p.regWidth w
  match p.wireOrder with
  | .msbFirst => (v.hi, v.lo)
  | .lsbFirst => (v.lo, v.hi)

/-- The register of `REG_WIDTH` bits whose first byte on the bus is `b0` (R40). -/
def wireWord (p : Params) (b0 b1 : Byte) : Word :=
  trunc p.regWidth (match p.wireOrder with
    | .msbFirst => Word.ofBytes b0 b1
    | .lsbFirst => Word.ofBytes b1 b0)

/-- The device's registers (R36). They are not state of the block (R32). -/
inductive DeviceReg where
  | result
  | configuration
  | lowLimit
  | highLimit
  | manufacturerId
  | deviceId
  deriving DecidableEq, Repr

/-- The register pointer of a mapped register (R36). -/
def DeviceReg.pointer : DeviceReg → Byte
  | .result => 0x00
  | .configuration => 0x01
  | .lowLimit => 0x02
  | .highLimit => 0x03
  | .manufacturerId => 0x7E
  | .deviceId => 0x7F

/-- The device's access right (R36); the block checks none (R44, R76). -/
def DeviceReg.readOnly : DeviceReg → Bool
  | .result | .manufacturerId | .deviceId => true
  | .configuration | .lowLimit | .highLimit => false

/-- The field input that a 16-bit operand gives: `FIELD_IN_WIDTH` bits (R61, D15). -/
def fieldInput (p : Params) (v : Word) : Word := trunc p.fieldInWidth v

/-- The field inputs that eleven 16-bit operands give (R61). -/
def fieldInputs (p : Params) (f : CfgInputs) : CfgInputs where
  fc  := fieldInput p f.fc
  me  := fieldInput p f.me
  pol := fieldInput p f.pol
  l   := fieldInput p f.l
  fl  := fieldInput p f.fl
  fh  := fieldInput p f.fh
  crf := fieldInput p f.crf
  ovf := fieldInput p f.ovf
  m   := fieldInput p f.m
  ct  := fieldInput p f.ct
  rn  := fieldInput p f.rn

/-- `trunc_w` of an input of any width, put at bit `pos` of a word (R6, R59, R61). -/
def placeField {k : Nat} (w pos : Nat) (v : BitVec k) : Word := ((v.setWidth w).setWidth 16) <<< pos

/-- `packCfg` (R59): each input reduced to its field width, whatever its own width `k` (R61). -/
def packCfg {k : Nat} (f : FieldInputs k) : Word :=
  placeField 2 0 f.fc ||| placeField 1 2 f.me ||| placeField 1 3 f.pol ||| placeField 1 4 f.l
    ||| placeField 1 5 f.fl ||| placeField 1 6 f.fh ||| placeField 1 7 f.crf ||| placeField 1 8 f.ovf
    ||| placeField 2 9 f.m ||| placeField 1 11 f.ct ||| placeField 4 12 f.rn

/-- `unpackCfg` (R59, R16). -/
def unpackCfg (w : Word) : CfgFields where
  fc  := w.extractLsb' 0 2
  me  := w.extractLsb' 2 1
  pol := w.extractLsb' 3 1
  l   := w.extractLsb' 4 1
  fl  := w.extractLsb' 5 1
  fh  := w.extractLsb' 6 1
  crf := w.extractLsb' 7 1
  ovf := w.extractLsb' 8 1
  m   := w.extractLsb' 9 2
  ct  := w.extractLsb' 11 1
  rn  := w.extractLsb' 12 4

/-- A decoded record given back as 16-bit operands, each zero-extended (R6, R62). -/
def CfgFields.toInputs (f : CfgFields) : CfgInputs where
  fc  := f.fc.setWidth 16
  me  := f.me.setWidth 16
  pol := f.pol.setWidth 16
  l   := f.l.setWidth 16
  fl  := f.fl.setWidth 16
  fh  := f.fh.setWidth 16
  crf := f.crf.setWidth 16
  ovf := f.ovf.setWidth 16
  m   := f.m.setWidth 16
  ct  := f.ct.setWidth 16
  rn  := f.rn.setWidth 16

/-- `trunc(f)`: each field input truncated to its width (R61, R62). -/
def truncCfg {k : Nat} (f : FieldInputs k) : CfgFields where
  fc  := f.fc.setWidth 2
  me  := f.me.setWidth 1
  pol := f.pol.setWidth 1
  l   := f.l.setWidth 1
  fl  := f.fl.setWidth 1
  fh  := f.fh.setWidth 1
  crf := f.crf.setWidth 1
  ovf := f.ovf.setWidth 1
  m   := f.m.setWidth 2
  ct  := f.ct.setWidth 1
  rn  := f.rn.setWidth 4

/-- `packRes(r, e) = trunc_12(r) | trunc_4(e) << 12` (R60). -/
def packRes {k : Nat} (r e : BitVec k) : Word := placeField 12 0 r ||| placeField 4 12 e

/-- The `reading` of a Result Word: `w[11:0]` (R58). -/
def readingOf (w : Word) : BitVec 12 := w.extractLsb' 0 12

/-- The `exponent` of a Result Word: `w[15:12]` (R58). -/
def exponentOf (w : Word) : BitVec 4 := w.extractLsb' 12 4

/-- The payload of `unpackRes(w)` (R60). -/
def unpackRes (w : Word) : Payload := .result (readingOf w) (exponentOf w)

/-- `mant = r12 << e4`, 27 bits (R71, R72). -/
def mantOf (r12 : BitVec 12) (e4 : BitVec 4) : BitVec 27 := (r12.setWidth 27) <<< e4.toNat

/-- `luxOf(r12, e4) = r12 * 2^e4 * LUX_SCALE`, an exact rational (R71). -/
def luxOf (scale : Rat) (r12 : BitVec 12) (e4 : BitVec 4) : Rat :=
  ((r12.toNat * 2 ^ e4.toNat : Nat) : Rat) * scale

/-- The payload `(lux, mant)` of the illuminance commands (R71, R85). -/
def luxPayload (scale : Rat) (r12 : BitVec 12) (e4 : BitVec 4) : Payload :=
  .lux (luxOf scale r12 e4) (mantOf r12 e4)

/-- The 2-bit code of a session state (R12, D31). -/
def SessState.code : SessState → BitVec 2
  | .unstarted => 0b00
  | .addressed => 0b01
  | .verified => 0b10
  | .configured => 0b11

/-- `resp_status` (R55, R93, D18). -/
def Status.code : Status → BitVec 2
  | .ok => 0b00
  | .commError => 0b01
  | .identityMismatch => 0b10

end Sys2Proof.Machine
end

