-- ==== Sys2Proof/Machine/Flags.lean ====
section
/-! DEFINITION. The block has no condition codes (10_state.md R29). What it has instead: the field-select
mask of SET_CONFIG (42_session.md R83), and the names of the codes of the Configuration Word, which no
rule depends on (R17 to R27, D4; PRESUMED, log 10). -/
namespace Sys2Proof.Machine

/-- `fieldBits(i)` of R83, in the table order of R16: the bits of field `i` of the Configuration Word. -/
def fieldBits : List Word :=
  [0x0003, 0x0004, 0x0008, 0x0010, 0x0020, 0x0040, 0x0080, 0x0100, 0x0600, 0x0800, 0xF000]

/-- The OR of the bits of the fields that `sel` selects, field `i` being the head of the list. -/
def selectedBits (sel : Word) : Nat → List Word → Word
  | _, [] => 0
  | i, b :: bs => (if sel.getLsbD i then b else 0) ||| selectedBits sel (i + 1) bs

/-- `wmask` (R83): bits 15:11 of `sel` are ignored (R54). -/
def writeMask (sel : Word) : Word := selectedBits sel 0 fieldBits

/-- `(soft_cfg & ~wmask) | (packCfg(f) & wmask)` (R83). -/
def updateCfg {k : Nat} (cfg : Word) (sel : Word) (f : FieldInputs k) : Word :=
  (cfg &&& ~~~(writeMask sel)) ||| (packCfg f &&& writeMask sel)

/-! ## Names of the codes -/

/-- The sensor faults required before the interrupt (R17; G3). -/
def faultsRequired (fc : BitVec 2) : Nat := 2 ^ fc.toNat

/-- The meanings the source gives `interrupt_polarity` (R19). -/
inductive Polarity where
  | activeLow
  | activeHigh
  deriving DecidableEq, Repr

/-- POL 0 = active-low, 1 = active-high (G4). -/
def polarityOf (pol : BitVec 1) : Polarity := if pol = 0 then .activeLow else .activeHigh

/-- The meanings the source gives `interrupt_mode` (R20). -/
inductive InterruptMode where
  | selfClearing
  | latched
  deriving DecidableEq, Repr

/-- L 1 = latched, 0 = self-clearing (G5). -/
def interruptModeOf (l : BitVec 1) : InterruptMode := if l = 0 then .selfClearing else .latched

/-- The meanings the source gives `mode` (R25). -/
inductive ConversionMode where
  | shutdown
  | singleShot
  | continuous
  deriving DecidableEq, Repr

/-- M 0 = shutdown, 1 = single-shot, 2 and 3 = continuous (G6). -/
def conversionModeOf (m : BitVec 2) : ConversionMode :=
  if m = 0 then .shutdown else if m = 1 then .singleShot else .continuous

/-- The integration time in milliseconds: CT 0 = 100, 1 = 800 (R26; G7). -/
def conversionMillis (ct : BitVec 1) : Nat := if ct = 0 then 100 else 800

/-- The meanings the source gives `range` (R27). -/
inductive RangeCode where
  | fixed (code : BitVec 4)
  | auto
  | reserved
  deriving DecidableEq, Repr

/-- RN 0x0 to 0xB are fixed ranges, 0xC is auto-range, 0xD to 0xF are reserved on the device (G8). -/
def rangeOf (rn : BitVec 4) : RangeCode :=
  if rn.toNat < 12 then .fixed rn else if rn = 12 then .auto else .reserved

end Sys2Proof.Machine
end

