-- ==== Sys2Proof/Machine/Ops.lean ====
section
/-! DEFINITION. The named operations over the state: its updates, the response and the error exits
(60_exceptions.md R94, R95), the transport calls (20_memory.md R37, R38), the two access sequences
MemWrite and MemRead (41_register_access.md R74, R75), and the ports (30_encoding.md R53). -/
namespace Sys2Proof.Machine

/-! ## Updates -/

def State.setSess (s : State) (v : SessState) : State := { s with sess := v }

def State.setDevAddr (s : State) (a : BusAddr) : State := { s with devAddr := some a }

def State.setSoftCfg (s : State) (w : Word) : State := { s with softCfg := w }

/-- Record an event in `H` (R38). -/
def State.logEvent (s : State) (e : Event) : State := { s with hist := s.hist ++ [e] }

/-- One transport answer has been used. -/
def State.takeAnswer (s : State) : State := { s with script := s.script.tail, calls := s.calls + 1 }

/-- `n` buffer bytes have been drawn. -/
def State.takeDraws (s : State) (n : Nat) : State := { s with draws := s.draws + n }

/-- The host port hands over a command; `rest` is what it still has to present. From here `busy = 1` (R53). -/
def State.accept (s : State) (rest : List (List Byte)) : State := { s with port := rest, busy := true }

/-- The command returns: its response is out and `busy = 0` again (R53). -/
def State.returnWith (s : State) (r : Response) : State :=
  { s with responses := s.responses ++ [r], busy := false }

/-- Enter the model fault `f`: the mark is set and nothing else changes; no response, and the command is no
longer in progress (R95). -/
def State.enterFault (s : State) (f : ModelFault) : State := { s with fault := some f, busy := false }

/-- Refuse a command: the mark is set and nothing else changes (R96). -/
def State.refuse (s : State) : State := { s with refused := true }

/-! ## Ends of a command -/

/-- What a meaning answers. -/
abbrev Result := Host.Outcome State Fault Refusal

/-- `return (status, payload)` (R7). -/
def respond (s : State) (st : Status) (p : Payload) : Result := .next (s.returnWith ⟨st, p⟩)

/-- `return (OK, payload)`. -/
def returnOk (s : State) (p : Payload) : Result := respond s .ok p

/-- `raise`: the command ends at once with this status and no payload; what it wrote before stays (R94). -/
def raiseError (s : State) (st : Status) : Result := respond s st .none

/-! ## Sequences of transport calls -/

/-- How a part of a command ends. -/
inductive BusResult (α : Type) where
  /-- It goes on with a value. -/
  | done (v : α) (s : State)
  /-- It raised CommError. -/
  | commError (s : State)
  /-- It met the model fault. -/
  | faulted (f : ModelFault) (s : State)

/-- Go on with `k` where `r` is done; otherwise end as `r` ends: no later step runs (R94). -/
def BusResult.andThen {α β : Type} (r : BusResult α) (k : α → State → BusResult β) : BusResult β :=
  match r with
  | .done v s => k v s
  | .commError s => .commError s
  | .faulted f s => .faulted f s

/-- End a command on a sequence: `onError` is what the command's rule writes before it raises CommError. -/
def BusResult.finish {α : Type} (r : BusResult α) (onError : State → State) (k : α → State → Result) :
    Result :=
  match r with
  | .done v s => k v s
  | .commError s => raiseError (onError s) .commError
  | .faulted f s => .next (s.enterFault f)

/-- The answer the `k`-th transport call from here gets: the script's, or a free one where the script has
run out (R38). -/
def State.answer (s : State) (k : Nat) : Answer := s.script.getD k (Config.freeAnswer (s.calls + k))

/-- One call of primitive `p` (R37): on `exc` the event is `Exc p` and CommError is raised at once (R74, R75,
D11); otherwise the event is the call's own and its answer is handed on. -/
def call (p : Primitive) (ev : Answer → Event) (s : State) : BusResult Answer :=
  let a := s.answer 0
  if a.exc then .commError (s.takeAnswer.logEvent (.exc p)) else .done a (s.takeAnswer.logEvent (ev a))

/-- `T.begin(a)`: the handle is ignored (D36). -/
def tBegin (a : BusAddr) (s : State) : BusResult Answer := call .beginTxn (fun _ => .beginTxn a) s

/-- `T.write(bs)`: one event; `ok` is ignored (R39, D12). -/
def tWrite (bs : List Byte) (s : State) : BusResult Answer := call .write (fun _ => .write bs) s

/-- `T.end()`: the close status is the answer's `status`. -/
def tEnd (s : State) : BusResult Answer := call .endTxn (fun a => .endTxn a.status) s

/-- `T.request(a, n)`. -/
def tRequest (a : BusAddr) (n : Byte) (s : State) : BusResult Answer := call .request (fun _ => .request a n) s

/-- `T.avail()`: the count is the answer's `avail`. -/
def tAvail (s : State) : BusResult Answer := call .avail (fun a => .avail a.avail) s

/-- `T.readByte()`: the byte is the answer's `byte`. -/
def tReadByte (s : State) : BusResult Answer := call .readByte (fun a => .readByte a.byte) s

/-- One addressed write transaction: `Begin a ; Write bs ; End st`, CommError unless `st = 0` (R63). -/
def transaction (a : BusAddr) (bs : List Byte) (s : State) : BusResult Unit :=
  (tBegin a s).andThen fun _ s =>
  (tWrite bs s).andThen fun _ s =>
  (tEnd s).andThen fun r s =>
  if r.status = 0 then .done () s else .commError s

/-- The loop of MemRead with `n` bytes still wanted: the bytes received, in order. `n` is checked before each
`T.avail()`; a zero count stops it silently (R75, D14). -/
def readLoop : Nat → State → BusResult (List Byte)
  | 0, s => .done [] s
  | n + 1, s =>
    (tAvail s).andThen fun r s =>
    if r.avail = 0 then .done [] s else
    (tReadByte s).andThen fun r s =>
    (readLoop n s).andThen fun bs s =>
    .done (r.byte :: bs) s

/-- The next `n` buffer draws (R31, R75). -/
def State.drawn (s : State) (n : Nat) : List Byte := (List.range n).map fun j => Config.freeByte (s.draws + j)

/-- The buffer after the loop: the received bytes, and drawn bytes where none was received (R75). -/
def fillBuffer (got drawn : List Byte) : List Byte := got ++ drawn.drop got.length

/-- MemWrite (R74). -/
def memWrite (reg : Byte) (bs : List Byte) (s : State) : BusResult Unit :=
  match s.devAddr with
  | none => .faulted .usedBeforeAddressed s
  | some a => transaction a (ptrByte s.params reg :: bs) s

/-- MemRead (R75): the address phase, then the read phase. -/
def memRead (reg : Byte) (n : Byte) (s : State) : BusResult (List Byte) :=
  match s.devAddr with
  | none => .faulted .usedBeforeAddressed s
  | some a =>
    (transaction a [ptrByte s.params reg] s).andThen fun _ s =>
    (tRequest a n s).andThen fun _ s =>
    (readLoop n.toNat (s.takeDraws n.toNat)).andThen fun got t =>
    if got.length < n.toNat ∧ t.params.shortReadPolicy = .commError then .commError t
    else .done (fillBuffer got (s.drawn n.toNat)) t

/-- A 16-bit register write of value `w` (R63). -/
def writeReg16 (reg : DeviceReg) (w : Word) (s : State) : BusResult Unit :=
  let b := wireBytes s.params w
  memWrite reg.pointer [b.1, b.2] s

/-- A 16-bit register read (R63). The buffer of a two-byte MemRead has exactly two bytes, so neither default
is ever taken. -/
def readReg16 (reg : DeviceReg) (s : State) : BusResult Word :=
  (memRead reg.pointer 2 s).andThen fun buf s =>
  .done (wireWord s.params (buf.getD 0 0) (buf.getD 1 0)) s

/-! ## Ports -/

/-- The status outputs of the host port (R53). -/
structure StatusPort where
  busy         : Bool
  sess         : BitVec 2
  devAddrValid : Bool
  devAddr      : BusAddr
  softCfg      : Word
  deriving DecidableEq, Repr

/-- What the host reads on the status outputs, at any time (R53, R12, R15). While `dev_addr` holds no value
its output is a free value of `BUS_ADDR_WIDTH` bits (log 8). -/
def State.statusPort (s : State) : StatusPort where
  busy := s.busy
  sess := s.sess.code
  devAddrValid := s.devAddr.isSome
  devAddr := s.devAddr.getD (trunc s.params.busAddrWidth Config.devAddrWhileInvalid)
  softCfg := s.softCfg

/-- The response outputs of the host port (R53): `resp_status` and payload of the newest response; `none` is
`resp_valid = 0`, before any response. -/
def State.responsePort (s : State) : Option (BitVec 2 × Payload) :=
  s.responses.getLast?.map fun r => (r.status.code, r.payload)

end Sys2Proof.Machine
end

