-- ==== Sys2Proof/Machine/Access.lean ====
section
/-! DEFINITION. The Register Access Layer commands (41_register_access.md R76, R77): raw bytes in bus order,
any pointer, any length. -/
namespace Sys2Proof.Machine

/-- WRITE_REGISTER (R76). -/
def execWriteRegister (reg : Byte) (data : List Byte) (s : State) : Result :=
  (memWrite reg data s).finish id fun _ t => returnOk t .none

/-- READ_REGISTER (R77). -/
def execReadRegister (reg : Byte) (len : Byte) (s : State) : Result :=
  (memRead reg len s).finish id fun buf t => returnOk t (.data buf)

end Sys2Proof.Machine
end

