-- ==== Sys2Proof/Machine/Codec.lean ====
section
/-! DEFINITION. The Register Codec commands (40_codec.md R67 to R71): pure, legal in every state, no
transport call, status OK. -/
namespace Sys2Proof.Machine

/-- The payload of an encode command: the two bytes of `w` in bus order (R67, R69). -/
def wirePayload (p : Params) (w : Word) : Payload := .wire (wireBytes p w).1 (wireBytes p w).2

/-- ENCODE_CONFIG (R67). -/
def execEncodeConfig (f : CfgInputs) (s : State) : Result :=
  returnOk s (wirePayload s.params (packCfg (fieldInputs s.params f)))

/-- DECODE_CONFIG (R68). -/
def execDecodeConfig (b0 b1 : Byte) (s : State) : Result :=
  returnOk s (.config (unpackCfg (wireWord s.params b0 b1)))

/-- ENCODE_RESULT (R69). -/
def execEncodeResult (r e : Word) (s : State) : Result :=
  returnOk s (wirePayload s.params (packRes (fieldInput s.params r) (fieldInput s.params e)))

/-- DECODE_RESULT (R70). -/
def execDecodeResult (b0 b1 : Byte) (s : State) : Result :=
  returnOk s (unpackRes (wireWord s.params b0 b1))

/-- ILLUMINANCE (R71): the inputs are reduced to 12 and 4 bits (D29). -/
def execIlluminance (r e : Word) (s : State) : Result :=
  returnOk s (luxPayload s.params.luxScale ((fieldInput s.params r).setWidth 12)
    ((fieldInput s.params e).setWidth 4))

end Sys2Proof.Machine
end

