-- ==== Sys2Proof/Machine/Configuration.lean ====
section
/-! DEFINITION. The configuration commands of the Sensor Session (42_session.md R83, R84). -/
namespace Sys2Proof.Machine

/-- SET_CONFIG (R83). -/
def execSetConfig (sel : Word) (f : CfgInputs) (s : State) : Result :=
  returnOk (s.setSoftCfg (updateCfg s.softCfg sel (fieldInputs s.params f))) .none

/-- READ_CONFIG (R84): `soft_cfg` is not written. -/
def execReadConfig (s : State) : Result :=
  (readReg16 .configuration s).finish id fun w t => returnOk t (.config (unpackCfg w))

end Sys2Proof.Machine
end

