-- ==== Sys2Proof/Machine/Measurement.lean ====
section
/-! DEFINITION. The measurement and limit commands of the Sensor Session (42_session.md R85 to R89). -/
namespace Sys2Proof.Machine

/-- Read a limit register as a Result Word (R86, R88). -/
def getLimit (reg : DeviceReg) (s : State) : Result :=
  (readReg16 reg s).finish id fun w t => returnOk t (unpackRes w)

/-- Write a limit register (R87, R89). -/
def setLimit (reg : DeviceReg) (r e : Word) (s : State) : Result :=
  (writeReg16 reg (packRes (fieldInput s.params r) (fieldInput s.params e)) s).finish id fun _ t => returnOk t .none

/-- GET_ILLUMINANCE (R85). -/
def execGetIlluminance (s : State) : Result :=
  (readReg16 .result s).finish id fun w t =>
    returnOk t (luxPayload t.params.luxScale (readingOf w) (exponentOf w))

/-- GET_HIGH_LIMIT (R86). -/
def execGetHighLimit (s : State) : Result := getLimit .highLimit s

/-- SET_HIGH_LIMIT (R87). -/
def execSetHighLimit (r e : Word) (s : State) : Result := setLimit .highLimit r e s

/-- GET_LOW_LIMIT (R88). -/
def execGetLowLimit (s : State) : Result := getLimit .lowLimit s

/-- SET_LOW_LIMIT (R89). -/
def execSetLowLimit (r e : Word) (s : State) : Result := setLimit .lowLimit r e s

end Sys2Proof.Machine
end

