-- ==== Sys2Proof/Machine/Session.lean ====
section
/-! DEFINITION. The initialisation commands of the Sensor Session (42_session.md R79 to R82). -/
namespace Sys2Proof.Machine

/-- `dev_addr <- normAddr(raw) ; sess <- Addressed` (R79, and the first line of R82). -/
def State.address (s : State) (raw : Byte) : State := (s.setDevAddr (normAddr s.params raw)).setSess .addressed

/-- `if sess = Addressed: sess <- Verified` (R80). -/
def State.advanceVerified (s : State) : State :=
  if s.sess = .addressed then s.setSess .verified else s

/-- `if sess in {Verified, Configured}: sess <- Configured` (R81). -/
def State.advanceConfigured (s : State) : State :=
  if s.sess = .verified ∨ s.sess = .configured then s.setSess .configured else s

/-- `if sess = Configured then sess <- Verified` (R81, on CommError). -/
def State.dropConfigured (s : State) : State :=
  if s.sess = .configured then s.setSess .verified else s

/-- SET_ADDRESS (R79). -/
def execSetAddress (raw : Byte) (s : State) : Result := returnOk (s.address raw) .none

/-- CHECK_COMMS (R80). -/
def execCheckComms (s : State) : Result :=
  (readReg16 .manufacturerId s).finish (fun t => t.setSess .addressed) fun w t =>
    if w ≠ t.params.mfrIdExpected then raiseError (t.setSess .addressed) .identityMismatch
    else returnOk t.advanceVerified .none

/-- APPLY_CONFIG (R81). -/
def execApplyConfig (s : State) : Result :=
  (writeReg16 .configuration s.softCfg s).finish State.dropConfigured fun _ t =>
    returnOk t.advanceConfigured .none

/-- BEGIN (R82). -/
def execBegin (raw : Byte) (s : State) : Result :=
  (readReg16 .manufacturerId (s.address raw)).finish id fun w t =>
    if w ≠ t.params.mfrIdExpected then raiseError t .identityMismatch
    else (writeReg16 .configuration t.softCfg (t.setSess .verified)).finish id fun _ u =>
      returnOk (u.setSess .configured) .none

end Sys2Proof.Machine
end

