-- ==== Sys2Proof/Machine/Dispatch.lean ====
section
/-! DEFINITION. One arm per command. -/
namespace Sys2Proof.Machine

def exec (i : Instr) (s : State) : Host.Outcome State Fault Refusal :=
  match i with
  | .encodeConfig f => Sys2Proof.Machine.execEncodeConfig f s
  | .decodeConfig b0 b1 => Sys2Proof.Machine.execDecodeConfig b0 b1 s
  | .encodeResult r e => Sys2Proof.Machine.execEncodeResult r e s
  | .decodeResult b0 b1 => Sys2Proof.Machine.execDecodeResult b0 b1 s
  | .illuminance r e => Sys2Proof.Machine.execIlluminance r e s
  | .writeRegister reg data => Sys2Proof.Machine.execWriteRegister reg data s
  | .readRegister reg len => Sys2Proof.Machine.execReadRegister reg len s
  | .setAddress raw => Sys2Proof.Machine.execSetAddress raw s
  | .checkComms => Sys2Proof.Machine.execCheckComms s
  | .applyConfig => Sys2Proof.Machine.execApplyConfig s
  | .beginSession raw => Sys2Proof.Machine.execBegin raw s
  | .setConfig sel f => Sys2Proof.Machine.execSetConfig sel f s
  | .readConfig => Sys2Proof.Machine.execReadConfig s
  | .getIlluminance => Sys2Proof.Machine.execGetIlluminance s
  | .getHighLimit => Sys2Proof.Machine.execGetHighLimit s
  | .setHighLimit r e => Sys2Proof.Machine.execSetHighLimit r e s
  | .getLowLimit => Sys2Proof.Machine.execGetLowLimit s
  | .setLowLimit r e => Sys2Proof.Machine.execSetLowLimit r e s

end Sys2Proof.Machine
end

