-- ==== Sys2Proof/WellFormed.lean ====
section
/-! DEFINITION. Operand legality (30_encoding.md R57): every value that fits its field is legal, and a data length is
legal up to `MAX_XFER_LEN`. The only operand whose type is wider than its field is the data of WRITE_REGISTER, whose
length is the 8-bit `len`. The block checks neither (log 15). -/
namespace Sys2Proof

/-- A data length of at most `MAX_XFER_LEN` (R41, R57, D17). -/
def lenFits (p : Params) (n : Nat) : Bool := decide (n ≤ p.maxXferLen.toNat)

/-- A command whose operands are legal (R57). -/
def Instr.wellFormed (p : Params) : Instr → Bool
  | .writeRegister _ data => lenFits p data.length
  | .readRegister _ len => lenFits p len.toNat
  | .encodeConfig _ | .decodeConfig _ _ | .encodeResult _ _ | .decodeResult _ _ | .illuminance _ _
  | .setAddress _ | .checkComms | .applyConfig | .beginSession _
  | .setConfig _ _ | .readConfig | .getIlluminance | .getHighLimit | .setHighLimit _ _
  | .getLowLimit | .setLowLimit _ _ => true

/-- `wellFormed` as a proposition. -/
abbrev Instr.WellFormed (i : Instr) (p : Params) : Prop := i.wellFormed p = true

end Sys2Proof
end

