-- ==== Sys2Proof/Decode.lean ====
section
/-! DEFINITION. Serialised commands (30_encoding.md R54 to R57, R65): a decoder, total on any byte
sequence, which refuses by name, and after it an encoder written from the same tables. -/
namespace Sys2Proof

/-- Why a byte sequence spells no command (R56). -/
inductive DecodeError where
  /-- The opcode byte is not one of the 18 of R55. -/
  | unassignedOpcode (op : Byte)
  /-- The sequence is shorter than its opcode's format needs (also: it has no opcode byte). -/
  | truncated
  deriving DecidableEq, Repr

/-! ## Reading operands -/

/-- An operand reader: the operand and the bytes after it, or `none` where the bytes run out. -/
abbrev Reader (α : Type) := List Byte → Option (α × List Byte)

/-- An 8-bit operand. -/
def readByte8 : Reader Byte
  | [] => none
  | b :: bs => some (b, bs)

/-- A 16-bit operand, high byte first (R54). -/
def readWord16 : Reader Word
  | h :: l :: bs => some (Word.ofBytes h l, bs)
  | _ => none

/-- Two operands in order. -/
def readPair {α β : Type} (p : Reader α) (q : Reader β) : Reader (α × β) := fun bs =>
  match p bs with
  | none => none
  | some (a, bs) =>
    match q bs with
    | none => none
    | some (b, bs) => some ((a, b), bs)

/-- Exactly `n` data bytes. -/
def readBytes : Nat → Reader (List Byte)
  | 0, bs => some ([], bs)
  | _ + 1, [] => none
  | n + 1, b :: bs =>
    match readBytes n bs with
    | none => none
    | some (ds, rest) => some (b :: ds, rest)

/-- The eleven field inputs in Configuration Word order (R54, format CF). -/
def readCfg : Reader CfgInputs := fun bs =>
  match readPair readWord16 (readPair readWord16 (readPair readWord16 (readPair readWord16
      (readPair readWord16 (readPair readWord16 (readPair readWord16 (readPair readWord16
      (readPair readWord16 (readPair readWord16 readWord16))))))))) bs with
  | none => none
  | some ((fc, me, pol, l, fl, fh, crf, ovf, m, ct, rn), rest) =>
    some (⟨fc, me, pol, l, fl, fh, crf, ovf, m, ct, rn⟩, rest)

/-- Format WR after its opcode: `reg`, `len`, then `len` data bytes (R54). -/
def readWR : Reader (Byte × List Byte) := fun bs =>
  match readPair readByte8 readByte8 bs with
  | none => none
  | some ((reg, len), bs) =>
    match readBytes len.toNat bs with
    | none => none
    | some (data, rest) => some ((reg, data), rest)

/-- A command from its operands, or the truncation error (R56). -/
def withOperands {α : Type} (p : Reader α) (mk : α → Instr) (bs : List Byte) :
    Except DecodeError (Instr × List Byte) :=
  match p bs with
  | none => .error .truncated
  | some (x, rest) => .ok (mk x, rest)

/-! ## The decoder -/

/-- The command of opcode `op` whose operands start the bytes `bs`. The opcode byte is matched exactly against
the 18 values of R55; the length follows from the opcode, and for WR from the length byte (R65). -/
def decodeOperands (op : Byte) (bs : List Byte) : Except DecodeError (Instr × List Byte) :=
  match op.toNat with
  | 0x01 => withOperands readCfg .encodeConfig bs
  | 0x02 => withOperands (readPair readByte8 readByte8) (fun x => .decodeConfig x.1 x.2) bs
  | 0x03 => withOperands (readPair readWord16 readWord16) (fun x => .encodeResult x.1 x.2) bs
  | 0x04 => withOperands (readPair readByte8 readByte8) (fun x => .decodeResult x.1 x.2) bs
  | 0x05 => withOperands (readPair readWord16 readWord16) (fun x => .illuminance x.1 x.2) bs
  | 0x10 => withOperands readWR (fun x => .writeRegister x.1 x.2) bs
  | 0x11 => withOperands (readPair readByte8 readByte8) (fun x => .readRegister x.1 x.2) bs
  | 0x20 => withOperands readByte8 .setAddress bs
  | 0x21 => .ok (.checkComms, bs)
  | 0x22 => .ok (.applyConfig, bs)
  | 0x23 => withOperands readByte8 .beginSession bs
  | 0x24 => withOperands (readPair readWord16 readCfg) (fun x => .setConfig x.1 x.2) bs
  | 0x25 => .ok (.readConfig, bs)
  | 0x26 => .ok (.getIlluminance, bs)
  | 0x27 => .ok (.getHighLimit, bs)
  | 0x28 => withOperands (readPair readWord16 readWord16) (fun x => .setHighLimit x.1 x.2) bs
  | 0x29 => .ok (.getLowLimit, bs)
  | 0x2A => withOperands (readPair readWord16 readWord16) (fun x => .setLowLimit x.1 x.2) bs
  | _ => .error (.unassignedOpcode op)

/-- The first command of a byte sequence and the bytes after it; total on any byte sequence (R56). -/
def decode : List Byte → Except DecodeError (Instr × List Byte)
  | [] => .error .truncated
  | op :: bs => decodeOperands op bs

/-! ## The encoder -/

/-- The opcode of a command (R55). -/
def Instr.opcode : Instr → Byte
  | .encodeConfig _ => 0x01
  | .decodeConfig _ _ => 0x02
  | .encodeResult _ _ => 0x03
  | .decodeResult _ _ => 0x04
  | .illuminance _ _ => 0x05
  | .writeRegister _ _ => 0x10
  | .readRegister _ _ => 0x11
  | .setAddress _ => 0x20
  | .checkComms => 0x21
  | .applyConfig => 0x22
  | .beginSession _ => 0x23
  | .setConfig _ _ => 0x24
  | .readConfig => 0x25
  | .getIlluminance => 0x26
  | .getHighLimit => 0x27
  | .setHighLimit _ _ => 0x28
  | .getLowLimit => 0x29
  | .setLowLimit _ _ => 0x2A

/-- The format of a command (R55). -/
def Instr.format : Instr → Format
  | .encodeConfig _ => .CF
  | .decodeConfig _ _ => .W2
  | .encodeResult _ _ => .RF
  | .decodeResult _ _ => .W2
  | .illuminance _ _ => .RF
  | .writeRegister _ _ => .WR
  | .readRegister _ _ => .RD
  | .setAddress _ => .B
  | .checkComms => .N
  | .applyConfig => .N
  | .beginSession _ => .B
  | .setConfig _ _ => .CFM
  | .readConfig => .N
  | .getIlluminance => .N
  | .getHighLimit => .N
  | .setHighLimit _ _ => .RF
  | .getLowLimit => .N
  | .setLowLimit _ _ => .RF

/-- The opcode map (R55). -/
def opcodeMap : List (Byte × Format) :=
  [(0x01, .CF), (0x02, .W2), (0x03, .RF), (0x04, .W2), (0x05, .RF), (0x10, .WR), (0x11, .RD), (0x20, .B),
    (0x21, .N), (0x22, .N), (0x23, .B), (0x24, .CFM), (0x25, .N), (0x26, .N), (0x27, .N), (0x28, .RF),
    (0x29, .N), (0x2A, .RF)]

/-- The serialised length of a format in bytes, `len` being the value of the length byte (R54). -/
def Format.serialLength : Format → (len : Nat) → Nat
  | .N, _ => 1
  | .B, _ => 2
  | .W2, _ => 3
  | .CF, _ => 23
  | .CFM, _ => 25
  | .RF, _ => 5
  | .WR, len => 3 + len
  | .RD, _ => 3

/-- A 16-bit operand, high byte first (R54). -/
def putWord (w : Word) : List Byte := [w.hi, w.lo]

/-- The eleven field inputs in Configuration Word order (R54). -/
def putCfg (f : CfgInputs) : List Byte :=
  putWord f.fc ++ (putWord f.me ++ (putWord f.pol ++ (putWord f.l ++ (putWord f.fl ++ (putWord f.fh ++
    (putWord f.crf ++ (putWord f.ovf ++ (putWord f.m ++ (putWord f.ct ++ putWord f.rn)))))))))

/-- The operand bytes of a command (R54). -/
def Instr.operandBytes : Instr → List Byte
  | .encodeConfig f => putCfg f
  | .decodeConfig b0 b1 => [b0, b1]
  | .encodeResult r e => putWord r ++ putWord e
  | .decodeResult b0 b1 => [b0, b1]
  | .illuminance r e => putWord r ++ putWord e
  | .writeRegister reg data => reg :: BitVec.ofNat 8 data.length :: data
  | .readRegister reg len => [reg, len]
  | .setAddress raw => [raw]
  | .checkComms => []
  | .applyConfig => []
  | .beginSession raw => [raw]
  | .setConfig sel f => putWord sel ++ putCfg f
  | .readConfig => []
  | .getIlluminance => []
  | .getHighLimit => []
  | .setHighLimit r e => putWord r ++ putWord e
  | .getLowLimit => []
  | .setLowLimit r e => putWord r ++ putWord e

/-- The serialised command: the opcode byte, then the operands of its format (R54). -/
def encode (i : Instr) : List Byte := i.opcode :: i.operandBytes

/-! ## The opcode table's bit numbering -/

/-- `n` bytes of `w`, bits 7:0 first: the numbering of spec/opcode_table.json. -/
def bytesOfNat : Nat → Nat → List Byte
  | 0, _ => []
  | n + 1, w => BitVec.ofNat 8 w :: bytesOfNat n (w / 256)

/-- The command's bytes in the table's numbering, with zero bytes after them, enough for the longest format
(25 bytes, CFM) and for the data of WRITE_REGISTER, whose length is the third byte (R54). -/
def tableBytes (nbits w : Nat) : List Byte :=
  let bs := bytesOfNat (nbits / 8) w
  bs ++ List.replicate (25 + (bs.getD 2 0).toNat) 0

/-- The command whose first `nbits` bits are `w` in the table's numbering and whose later bits are 0. -/
def decodeTableWord (nbits w : Nat) : Option Instr :=
  match decode (tableBytes nbits w) with
  | .ok (i, _) => some i
  | .error _ => none

/-- The bytes of that same command and no others (where they spell no command, the `nbits` themselves). -/
def tableWordBytes (nbits w : Nat) : List Byte :=
  match decode (tableBytes nbits w) with
  | .ok (_, rest) => (tableBytes nbits w).take ((tableBytes nbits w).length - rest.length)
  | .error _ => bytesOfNat (nbits / 8) w

end Sys2Proof
end

