-- ==== Sys2Proof/Machine/Fetch.lean ====
section
/-! DEFINITION. How a command reaches the block (30_encoding.md R53, R56) and when the block has no move
(60_exceptions.md R95, R96; 70_reset_and_hazards.md R111). -/
namespace Sys2Proof.Machine

/-- What the host port presents. -/
inductive Fetched where
  /-- `cmd_valid = 0`: no command. -/
  | idle
  /-- A byte sequence that spells no command (R56). -/
  | undecodable (e : DecodeError)
  /-- A command, and the state that has accepted it. -/
  | command (i : Instr) (s : State)

/-- What the host still has to present once a command's bytes are taken: any bytes after them are the next
serialised command (R65; log 5). -/
def remaining (rest : List Byte) (later : List (List Byte)) : List (List Byte) :=
  match rest with
  | [] => later
  | _ :: _ => rest :: later

/-- The command the host presents next. -/
def fetch (s : State) : Fetched :=
  match s.port with
  | [] => .idle
  | bs :: later =>
    match decode bs with
    | .error e => .undecodable e
    | .ok (i, rest) => .command i (s.accept (remaining rest later))

/-- Why the block has no move, if it has none: the `fault` mark (R95), the `refused` mark (R96), a command
presented while `busy = 1` (R111). -/
def noMove (s : State) : Option Result :=
  match s.fault with
  | some f => some (.fault (.marked f))
  | none =>
    if s.refused then some (.refused .marked)
    else if s.busy && !s.port.isEmpty then some (.fault .presentedWhileBusy)
    else none

/-- `bs` presented next. -/
def State.present (s : State) (bs : List Byte) : State := { s with port := bs :: s.port }

end Sys2Proof.Machine
end

