-- ==== Sys2Proof/Machine/Step.lean ====
section
/-! DEFINITION. One step of the model: one command (30_encoding.md R53, D1), or an idle block. -/
namespace Sys2Proof.Machine

/-- One step. A block with no move stops (`noMove`). Otherwise: no command presented, nothing changes; a byte
sequence that spells no command sets the `refused` mark (R96); a command is accepted and runs. -/
def step (s : State) : Host.Outcome State Fault Refusal :=
  match noMove s with
  | some r => r
  | none =>
    match fetch s with
    | .idle => .next s
    | .undecodable _ => .next s.refuse
    | .command i t => exec i t

/-- `s` with the command whose first `nbits` bits are `w` (the table's numbering, later bits 0) presented
next: the bytes go to the head of the host port, and nothing else changes (log 5). -/
def State.withFetchWord (s : State) (nbits w : Nat) : State := s.present (tableWordBytes nbits w)

end Sys2Proof.Machine
end

