-- ==== Sys2Proof/Machine/Assembler.lean ====
section
/-! DEFINITION. The textual syntax of one command (30_encoding.md R66, D28): notation for the host's
programs, no part of the block. A line is a list of characters. What R66 leaves open (a number too large
for its operand, a field named twice, an operand of format RF left out, the order of named operands) the model
settles as log 11 says. -/
namespace Sys2Proof.Machine.Asm

/-- A token of a line. -/
inductive Tok where
  | word (cs : List Char)
  | comma
  | equals
  | openList
  | closeList
  deriving DecidableEq, Repr

/-- The word read so far, if any. -/
def flush : List Char → List Tok
  | [] => []
  | c :: cs => [.word (c :: cs)]

/-- The tokens of a line; `acc` is the word being read. Spaces separate words. -/
def lex : List Char → List Char → List Tok
  | [], acc => flush acc
  | c :: cs, acc =>
    if c = ' ' then flush acc ++ lex cs []
    else if c = ',' then flush acc ++ .comma :: lex cs []
    else if c = '=' then flush acc ++ .equals :: lex cs []
    else if c = '[' then flush acc ++ .openList :: lex cs []
    else if c = ']' then flush acc ++ .closeList :: lex cs []
    else lex cs (acc ++ [c])

/-- The value of a digit, decimal or hexadecimal in either case. -/
def digit (c : Char) : Option Nat :=
  if '0'.toNat ≤ c.toNat ∧ c.toNat ≤ '9'.toNat then some (c.toNat - '0'.toNat)
  else if 'a'.toNat ≤ c.toNat ∧ c.toNat ≤ 'f'.toNat then some (c.toNat - 'a'.toNat + 10)
  else if 'A'.toNat ≤ c.toNat ∧ c.toNat ≤ 'F'.toNat then some (c.toNat - 'A'.toNat + 10)
  else none

/-- The number spelled by digits of base `base`, `acc` being the number so far. -/
def digits (base : Nat) : List Char → Nat → Option Nat
  | [], acc => some acc
  | c :: cs, acc =>
    match digit c with
    | none => none
    | some d => if d < base then digits base cs (acc * base + d) else none

/-- A number, decimal or `0x` hexadecimal (R66). -/
def number : List Char → Option Nat
  | [] => none
  | '0' :: 'x' :: c :: cs => digits 16 (c :: cs) 0
  | c :: cs => digits 10 (c :: cs) 0

/-- A number that fits `n` bits. -/
def operand (n : Nat) (cs : List Char) : Option (BitVec n) :=
  match number cs with
  | none => none
  | some v => if v < 2 ^ n then some (BitVec.ofNat n v) else none

/-- Byte operands separated by commas. -/
def byteOperands : List Tok → Option (List Byte)
  | [] => some []
  | [.word cs] => (operand 8 cs).map fun b => [b]
  | .word cs :: .comma :: t :: ts =>
    match operand 8 cs, byteOperands (t :: ts) with
    | some b, some bs => some (b :: bs)
    | _, _ => none
  | _ => none

/-- Named operands `name=value` separated by commas. -/
def namedOperands : List Tok → Option (List (List Char × Word))
  | [] => some []
  | [.word k, .equals, .word v] => (operand 16 v).map fun w => [(k, w)]
  | .word k :: .equals :: .word v :: .comma :: t :: ts =>
    match operand 16 v, namedOperands (t :: ts) with
    | some w, some rest => some ((k, w) :: rest)
    | _, _ => none
  | _ => none

/-- The field names of formats CF and CFM, in Configuration Word order (R54, R66). -/
def fieldNames : List (List Char) :=
  [['f', 'c'], ['m', 'e'], ['p', 'o', 'l'], ['l'], ['f', 'l'], ['f', 'h'], ['c', 'r', 'f'],
    ['o', 'v', 'f'], ['m'], ['c', 't'], ['r', 'n']]

/-- Every name is a field name, and none stands twice. -/
def namesOk (ops : List (List Char × Word)) : Bool :=
  (ops.map Prod.fst).all (fun k => fieldNames.contains k) && decide (ops.map Prod.fst).Nodup

/-- The input of a field: the one named, or 0 where it is left out (R66). -/
def input (ops : List (List Char × Word)) (k : List Char) : Word := (ops.lookup k).getD 0

/-- The eleven field inputs (R66). -/
def inputs (ops : List (List Char × Word)) : CfgInputs where
  fc  := input ops ['f', 'c']
  me  := input ops ['m', 'e']
  pol := input ops ['p', 'o', 'l']
  l   := input ops ['l']
  fl  := input ops ['f', 'l']
  fh  := input ops ['f', 'h']
  crf := input ops ['c', 'r', 'f']
  ovf := input ops ['o', 'v', 'f']
  m   := input ops ['m']
  ct  := input ops ['c', 't']
  rn  := input ops ['r', 'n']

/-- `sel` with exactly the bits of the named fields set, field `i` being the head of the list (R66). -/
def selectOf (ops : List (List Char × Word)) : Nat → List (List Char) → Word
  | _, [] => 0
  | i, k :: ks =>
    (if (ops.lookup k).isSome then BitVec.ofNat 16 (2 ^ i) else 0) ||| selectOf ops (i + 1) ks

/-- Format N: no operand. -/
def formN (i : Instr) (ts : List Tok) : Option Instr := if ts = [] then some i else none

/-- Formats B, W2 and RD: one or two byte operands. -/
def formB (mk : Byte → Instr) (ts : List Tok) : Option Instr :=
  match byteOperands ts with
  | some [a] => some (mk a)
  | _ => none

def formBB (mk : Byte → Byte → Instr) (ts : List Tok) : Option Instr :=
  match byteOperands ts with
  | some [a, b] => some (mk a b)
  | _ => none

/-- Format RF: `r=…, e=…`, both and in this order. DESIGN CHOICE (log 11): R66 states neither. -/
def formRF (mk : Word → Word → Instr) (ts : List Tok) : Option Instr :=
  match namedOperands ts with
  | some [(['r'], r), (['e'], e)] => some (mk r e)
  | _ => none

/-- Formats CF and CFM: named fields, IN ANY ORDER. DESIGN CHOICE (log 11): R66 does not say whether their order is
free; its examples name them in Configuration Word order. -/
def formFields (mk : List (List Char × Word) → Instr) (ts : List Tok) : Option Instr :=
  match namedOperands ts with
  | some ops => if namesOk ops then some (mk ops) else none
  | none => none

/-- The tokens between the brackets of format WR. -/
def listBody : List Tok → Option (List Tok)
  | [] => none
  | [.closeList] => some []
  | t :: ts => (listBody ts).map fun b => t :: b

/-- Format WR: `reg, [data]`; `len` is the list length, at most the 255 that the 8-bit `len`
carries (R54). -/
def formWR (ts : List Tok) : Option Instr :=
  match ts with
  | .word reg :: .comma :: .openList :: rest =>
    match operand 8 reg, (listBody rest).bind byteOperands with
    | some r, some data =>
      if data.length < 2 ^ 8 then some (.writeRegister r data) else none
    | _, _ => none
  | _ => none

/-- One line: a mnemonic of R55, then its operands (R66). -/
def assemble (line : String) : Option Instr :=
  match lex line.toList [] with
  | .word mn :: ts =>
    let is (name : String) : Bool := mn = name.toList
    if is "ENCODE_CONFIG" then formFields (fun ops => .encodeConfig (inputs ops)) ts
    else if is "DECODE_CONFIG" then formBB .decodeConfig ts
    else if is "ENCODE_RESULT" then formRF .encodeResult ts
    else if is "DECODE_RESULT" then formBB .decodeResult ts
    else if is "ILLUMINANCE" then formRF .illuminance ts
    else if is "WRITE_REGISTER" then formWR ts
    else if is "READ_REGISTER" then formBB .readRegister ts
    else if is "SET_ADDRESS" then formB .setAddress ts
    else if is "CHECK_COMMS" then formN .checkComms ts
    else if is "APPLY_CONFIG" then formN .applyConfig ts
    else if is "BEGIN" then formB .beginSession ts
    else if is "SET_CONFIG" then
      formFields (fun ops => .setConfig (selectOf ops 0 fieldNames) (inputs ops)) ts
    else if is "READ_CONFIG" then formN .readConfig ts
    else if is "GET_ILLUMINANCE" then formN .getIlluminance ts
    else if is "GET_HIGH_LIMIT" then formN .getHighLimit ts
    else if is "SET_HIGH_LIMIT" then formRF .setHighLimit ts
    else if is "GET_LOW_LIMIT" then formN .getLowLimit ts
    else if is "SET_LOW_LIMIT" then formRF .setLowLimit ts
    else none
  | _ => none

end Sys2Proof.Machine.Asm
end

