-- ==== Sys2Proof/Safety.lean ====
section
/-! DEFINITION. What counts as a safe run, and the vocabulary the statements use: the conditions on the
transport's answers under which a sequence of calls goes through, the events such a sequence records,
and the state it leaves. -/
namespace Sys2Proof.Machine

/-! ## Safe states -/

/-- Neither mark is set: the block can still move (60_exceptions.md R95, R96). -/
def State.Unmarked (s : State) : Prop := s.fault = none ∧ s.refused = false

/-- The block can accept a command (30_encoding.md R53): no mark, and not busy. -/
def State.Ready (s : State) : Prop := s.Unmarked ∧ s.busy = false

/-- One of the four device addresses (20_memory.md R35). -/
def LegalAddr (a : BusAddr) : Prop := a = 0x44 ∨ a = 0x45 ∨ a = 0x46 ∨ a = 0x47

/-- The address parameters have the values of R5 and R34. -/
def Params.SpecAddr (p : Params) : Prop := p.addrBase = 0x44 ∧ p.addrSelMask = 0x03 ∧ p.busAddrWidth = 7

/-- The block's invariant: `dev_addr = none` exactly when `sess = Unstarted` (42_session.md R90), `dev_addr`
is a normalised address (10_state.md R13), so one of the four where the parameters are R34's, and no command is
in progress between steps (R31, R53). -/
structure State.Inv (s : State) : Prop where
  unstarted_iff : s.devAddr = none ↔ s.sess = .unstarted
  normal_addr   : ∀ a, s.devAddr = some a → ∃ raw, a = normAddr s.params raw
  legal_addr    : Params.SpecAddr s.params → ∀ a, s.devAddr = some a → LegalAddr a
  not_busy      : s.busy = false

/-! ## Transport conditions -/

/-- The call that gets answer `k` raises no exception (20_memory.md R37). -/
def State.Returns (s : State) (k : Nat) : Prop := (s.answer k).exc = false

/-- The write transaction whose three calls get the answers from `k` on goes through: no exception, and
`T.end()` answers zero (30_encoding.md R63). -/
def State.Closes (s : State) (k : Nat) : Prop :=
  s.Returns k ∧ s.Returns (k + 1) ∧ s.Returns (k + 2) ∧ (s.answer (k + 2)).status = 0

/-- The pairs of Avail and ReadByte calls from answer `k` on deliver `n` bytes: no exception, and every count
is non-zero (41_register_access.md R75). -/
def State.Delivers (s : State) (k n : Nat) : Prop :=
  ∀ i, i < n → s.Returns (k + 2 * i) ∧ (s.answer (k + 2 * i)).avail ≠ 0 ∧ s.Returns (k + 2 * i + 1)

/-- A MemRead of `n` bytes whose first call gets answer `k` receives all of them: the address phase closes,
the request returns, the bytes are delivered. -/
def State.Reads (s : State) (k n : Nat) : Prop := s.Closes k ∧ s.Returns (k + 3) ∧ s.Delivers (k + 4) n

/-- The bytes those pairs deliver, in order. -/
def State.bytesFrom (s : State) (k n : Nat) : List Byte :=
  (List.range n).map fun i => (s.answer (k + 2 * i + 1)).byte

/-- The 16-bit word a two-byte MemRead assembles, its first call getting answer `k` (30_encoding.md R63). -/
def State.wordFrom (s : State) (k : Nat) : Word :=
  wireWord s.params (s.answer (k + 5)).byte (s.answer (k + 7)).byte

/-- The two bytes of the register value `w` on the bus, by arithmetic (20_memory.md R40): `w` has `REG_WIDTH` bits. -/
def busBytes (p : Params) (w : Nat) : Byte × Byte :=
  let v := w % 2 ^ p.regWidth
  match p.wireOrder with
  | .msbFirst => (BitVec.ofNat 8 (v / 256), BitVec.ofNat 8 (v % 256))
  | .lsbFirst => (BitVec.ofNat 8 (v % 256), BitVec.ofNat 8 (v / 256))

/-- The register value whose first byte on the bus is `b0`, by arithmetic (20_memory.md R40): `REG_WIDTH` bits. -/
def busValue (p : Params) (b0 b1 : Byte) : Nat :=
  (match p.wireOrder with
    | .msbFirst => b0.toNat * 256 + b1.toNat
    | .lsbFirst => b1.toNat * 256 + b0.toNat) % 2 ^ p.regWidth

/-- The value of the field input a 16-bit operand gives, by arithmetic (30_encoding.md R61): `FIELD_IN_WIDTH` bits. -/
def inputValue (p : Params) (v : Word) : Nat := v.toNat % 2 ^ p.fieldInWidth

/-! ## Events -/

/-- The events of a write transaction that raises no exception (30_encoding.md R63). -/
def State.writeEvents (s : State) (k : Nat) (a : BusAddr) (bs : List Byte) : List Event :=
  [.beginTxn a, .write bs, .endTxn (s.answer (k + 2)).status]

/-- The events of `n` pairs of Avail and ReadByte. -/
def State.pairEvents (s : State) (k n : Nat) : List Event :=
  (List.range n).flatMap fun i =>
    [.avail (s.answer (k + 2 * i)).avail, .readByte (s.answer (k + 2 * i + 1)).byte]

/-- The events of a MemRead of `n` bytes at pointer `reg` that receives all of them (41_register_access.md
R75). -/
def State.readEvents (s : State) (k : Nat) (a : BusAddr) (reg : Byte) (n : Byte) : List Event :=
  s.writeEvents k a [ptrByte s.params reg] ++ .request a n :: s.pairEvents (k + 4) n.toNat

/-- The bus address an event names is `a`, if it names one. -/
def Event.On (a : BusAddr) : Event → Prop
  | .beginTxn b => b = a
  | .request b _ => b = a
  | .write _ | .endTxn _ | .avail _ | .readByte _ | .exc _ => True

/-- An event that ends a command with CommError: an exception, a non-zero close status, and under the policy
`commError` a count of zero, which is a short read (60_exceptions.md R93; 41_register_access.md R75). -/
def Event.raises (p : ShortReadPolicy) : Event → Bool
  | .exc _ => true
  | .endTxn st => st != 0
  | .avail n => p == .commError && n == 0
  | .beginTxn _ | .write _ | .request _ _ | .readByte _ => false

/-- A `T.begin` call, whether it returned or raised. -/
def Event.triesBegin : Event → Bool
  | .beginTxn _ | .exc .beginTxn => true
  | .write _ | .endTxn _ | .request _ _ | .avail _ | .readByte _ | .exc .write | .exc .endTxn | .exc .request
  | .exc .avail | .exc .readByte => false

/-- A `T.request` call, whether it returned or raised. -/
def Event.triesRequest : Event → Bool
  | .request _ _ | .exc .request => true
  | .beginTxn _ | .write _ | .endTxn _ | .avail _ | .readByte _ | .exc .beginTxn | .exc .write | .exc .endTxn
  | .exc .avail | .exc .readByte => false

/-! ## Sequences that raise CommError -/

/-- The write transaction whose first call gets answer `k` raises CommError, its events being `evs`: each call in
turn raises an exception, or `T.end()` answers non-zero (41_register_access.md R74). -/
def State.WriteBreaks (s : State) (k : Nat) (a : BusAddr) (bs : List Byte) (evs : List Event) : Prop :=
  (¬ s.Returns k ∧ evs = [.exc .beginTxn]) ∨
  (s.Returns k ∧ ¬ s.Returns (k + 1) ∧ evs = [.beginTxn a, .exc .write]) ∨
  (s.Returns k ∧ s.Returns (k + 1) ∧ ¬ s.Returns (k + 2) ∧ evs = [.beginTxn a, .write bs, .exc .endTxn]) ∨
  (s.Returns k ∧ s.Returns (k + 1) ∧ s.Returns (k + 2) ∧ (s.answer (k + 2)).status ≠ 0 ∧
    evs = s.writeEvents k a bs)

/-- The loop of a read of `n` bytes whose first Avail gets answer `k` raises CommError after the events `evs`: after
`i` bytes the Avail or the ReadByte raises, or under `commError` the count is zero (R75). -/
def State.LoopBreaks (s : State) (k n : Nat) (evs : List Event) : Prop :=
  ∃ i, i < n ∧ s.Delivers k i ∧
    ((¬ s.Returns (k + 2 * i) ∧ evs = s.pairEvents k i ++ [.exc .avail]) ∨
     (s.Returns (k + 2 * i) ∧ (s.answer (k + 2 * i)).avail ≠ 0 ∧ ¬ s.Returns (k + 2 * i + 1) ∧
        evs = s.pairEvents k i ++ [.avail (s.answer (k + 2 * i)).avail, .exc .readByte]) ∨
     (s.Returns (k + 2 * i) ∧ (s.answer (k + 2 * i)).avail = 0 ∧ s.params.shortReadPolicy = .commError ∧
        evs = s.pairEvents k i ++ [.avail 0]))

/-- A MemRead of `n` bytes at pointer `reg` whose first call gets answer `k` raises CommError; its events are `evs`
and it draws `d` buffer bytes (R75). -/
def State.ReadBreaks (s : State) (k : Nat) (a : BusAddr) (reg : Byte) (n : Byte) (evs : List Event) (d : Nat) : Prop :=
  let sent := [ptrByte s.params reg]
  (s.WriteBreaks k a sent evs ∧ d = 0) ∨
  (s.Closes k ∧ ¬ s.Returns (k + 3) ∧ evs = s.writeEvents k a sent ++ [.exc .request] ∧ d = 0) ∨
  (s.Closes k ∧ s.Returns (k + 3) ∧ d = n.toNat ∧
    ∃ loop, s.LoopBreaks (k + 4) n.toNat loop ∧ evs = s.writeEvents k a sent ++ .request a n :: loop)

/-! ## Resulting states -/

/-- The state after the transport calls whose events are `evs`, one answer each. -/
def State.afterCalls (s : State) (evs : List Event) : State :=
  { s with hist := s.hist ++ evs, script := s.script.drop evs.length, calls := s.calls + evs.length }

/-- The state after a MemRead of `n` bytes that receives all of them, its first call getting answer 0. -/
def State.afterRead (s : State) (a : BusAddr) (reg : Byte) (n : Byte) : State :=
  (s.afterCalls (s.readEvents 0 a reg n)).takeDraws n.toNat

/-- The commands that call MemRead or MemWrite without writing `dev_addr` first (60_exceptions.md R93, R95). -/
def NeedsAddress : Instr → Bool
  | .writeRegister _ _ | .readRegister _ _ | .checkComms | .applyConfig | .readConfig | .getIlluminance
  | .getHighLimit | .setHighLimit _ _ | .getLowLimit | .setLowLimit _ _ => true
  | .encodeConfig _ | .decodeConfig _ _ | .encodeResult _ _ | .decodeResult _ _ | .illuminance _ _
  | .setAddress _ | .beginSession _ | .setConfig _ _ => false

/-- The commands of the Register Codec (40_codec.md). -/
def IsCodec : Instr → Bool
  | .encodeConfig _ | .decodeConfig _ _ | .encodeResult _ _ | .decodeResult _ _ | .illuminance _ _ => true
  | .writeRegister _ _ | .readRegister _ _ | .setAddress _ | .checkComms | .applyConfig | .beginSession _
  | .setConfig _ _ | .readConfig | .getIlluminance | .getHighLimit | .setHighLimit _ _ | .getLowLimit
  | .setLowLimit _ _ => false

/-- The commands whose only effect on the block is their response: those of the Register Access Layer, the
getters and the limit setters (41_register_access.md R76, R77; 42_session.md R84 to R89). -/
def IsPlainAccess : Instr → Bool
  | .writeRegister _ _ | .readRegister _ _ | .readConfig | .getIlluminance | .getHighLimit
  | .setHighLimit _ _ | .getLowLimit | .setLowLimit _ _ => true
  | .encodeConfig _ | .decodeConfig _ _ | .encodeResult _ _ | .decodeResult _ _ | .illuminance _ _
  | .setAddress _ | .checkComms | .applyConfig | .beginSession _ | .setConfig _ _ => false

/-- How many write transactions a command's rule lists (R45; 40_codec.md; 41_register_access.md R76, R77;
42_session.md R79 to R89): an access of a register begins one. -/
def maxBegins : Instr → Nat
  | .encodeConfig _ | .decodeConfig _ _ | .encodeResult _ _ | .decodeResult _ _ | .illuminance _ _
  | .setAddress _ | .setConfig _ _ => 0
  | .writeRegister _ _ | .readRegister _ _ | .checkComms | .applyConfig | .readConfig | .getIlluminance
  | .getHighLimit | .setHighLimit _ _ | .getLowLimit | .setLowLimit _ _ => 1
  | .beginSession _ => 2

/-- How many read phases a command's rule lists (as `maxBegins`). -/
def maxRequests : Instr → Nat
  | .encodeConfig _ | .decodeConfig _ _ | .encodeResult _ _ | .decodeResult _ _ | .illuminance _ _
  | .setAddress _ | .setConfig _ _ | .writeRegister _ _ | .applyConfig | .setHighLimit _ _
  | .setLowLimit _ _ => 0
  | .readRegister _ _ | .checkComms | .readConfig | .getIlluminance | .getHighLimit | .getLowLimit
  | .beginSession _ => 1

/-- The status of the newest response. -/
def State.lastStatus (s : State) : Option Status := s.responses.getLast?.map Response.status

/-- The session-state table of 42_session.md R90, one row per command and outcome: where a command that makes the
calls `evs` and returns `st` from `sess = u` leaves `sess`. BEGIN's CommError is one of the configuration write
exactly where the command tried to begin a second transaction. -/
def SessMove (i : Instr) (u : SessState) (evs : List Event) (st : Status) (v : SessState) : Prop :=
  match i with
  | .setAddress _ => v = .addressed
  | .checkComms =>
    match st with
    | .ok => v = if u = .addressed then .verified else u
    | .commError | .identityMismatch => v = .addressed
  | .applyConfig =>
    match st with
    | .ok => v = if u = .verified ∨ u = .configured then .configured else u
    | .commError | .identityMismatch => v = if u = .configured then .verified else u
  | .beginSession _ =>
    match st with
    | .ok => v = .configured
    | .identityMismatch => v = .addressed
    | .commError => v = if evs.countP Event.triesBegin = 2 then .verified else .addressed
  | .encodeConfig _ | .decodeConfig _ _ | .encodeResult _ _ | .decodeResult _ _ | .illuminance _ _
  | .writeRegister _ _ | .readRegister _ _ | .setConfig _ _ | .readConfig | .getIlluminance
  | .getHighLimit | .setHighLimit _ _ | .getLowLimit | .setLowLimit _ _ => v = u

/-- The payload a command returns with status OK is of the kind the opcode map gives it (30_encoding.md R55);
`len` bytes for READ_REGISTER. -/
def PayloadKind : Instr → Payload → Prop
  | .encodeConfig _, p | .encodeResult _ _, p => ∃ b0 b1, p = .wire b0 b1
  | .decodeConfig _ _, p | .readConfig, p => ∃ f, p = .config f
  | .decodeResult _ _, p | .getHighLimit, p | .getLowLimit, p => ∃ r e, p = .result r e
  | .illuminance _ _, p | .getIlluminance, p => ∃ lux mant, p = .lux lux mant
  | .readRegister _ len, p => ∃ bytes, p = .data bytes ∧ bytes.length = len.toNat
  | .writeRegister _ _, p | .setAddress _, p | .checkComms, p | .applyConfig, p | .beginSession _, p
  | .setConfig _ _, p | .setHighLimit _ _, p | .setLowLimit _ _, p => p = .none

end Sys2Proof.Machine
end

