-- ==== Sys2Proof/Certificates/Slice0/Obligations.lean ====
section
/-! DEFINITION. The statements for the provers. A statement about a response or a state says it for every
value of the parameters (`State.params`) and for every answer of the transport. -/
open Sys2Proof Sys2Proof.Machine

/-! ## Reset and the invariant -/

/-- R108's table, for every value of the parameters; `State.reset` is the instance with R5's values. -/
def Obligations.ResetLeavesSpecState : Prop :=
  State.reset = State.resetWith Config.specParams ∧
  ∀ p : Params, (State.resetWith p).sess = .unstarted ∧ (State.resetWith p).devAddr = none ∧
    (State.resetWith p).softCfg = p.softConfigReset ∧
    unpackCfg (State.resetWith p).softCfg = unpackCfg p.softConfigReset ∧
    (State.resetWith p).busy = false ∧ (State.resetWith p).fault = none ∧
    (State.resetWith p).refused = false ∧ (State.resetWith p).hist = []

/-- The values R5 gives its parameters (R34, D3, D5, D8, D9, D15, D17); `SOFT_CONFIG_RESET` stays OPEN (D6). At its
widths a register pointer and a field input are sent and taken as they are. -/
def Obligations.ResetUsesSpecParameters : Prop :=
  Params.SpecAddr State.reset.params ∧ State.reset.params.maxXferLen = 255 ∧
  State.reset.params.wireOrder = .msbFirst ∧ State.reset.params.mfrIdExpected = 0x5449 ∧
  State.reset.params.luxScale = 6 / 5 ∧ State.reset.params.shortReadPolicy = .tolerate ∧
  State.reset.params.softConfigReset = Config.softConfigReset ∧
  State.reset.params.regWidth = 16 ∧ State.reset.params.busAddrWidth = 7 ∧ State.reset.params.ptrWidth = 8 ∧
  State.reset.params.fieldInWidth = 16 ∧ (∀ reg : Byte, ptrByte State.reset.params reg = reg) ∧
  ∀ v : Word, inputValue State.reset.params v = v.toNat

/-- The invariant holds at reset, whatever the parameters. -/
def Obligations.ResetMeetsSessionInvariant : Prop :=
  ∀ p : Params, (State.resetWith p).Inv

/-- R90's invariant, R13's range of `dev_addr` (a normalised address; one of the four under R34's parameters) and
R53's `busy` between commands: every step keeps them. Widths other than R5's: the model's choice (log 2). -/
def Obligations.StepKeepsSessionInvariant : Prop :=
  ∀ s t : State, s.Inv → step s = .next t → t.Inv

/-- Whatever the host presents and whatever the transport answers, every state a run from reset reaches meets
the invariant. Widths other than R5's: the model's choice (log 2). -/
def Obligations.EveryRunKeepsSessionInvariant : Prop :=
  ∀ (p : Params) (port : List (List Byte)) (script : List Answer) (n : Nat) (t : State),
    core.run n { State.resetWith p with port := port, script := script } = .next t → State.Inv t

/-! ## Decoding -/

/-- R54, R55, R65: decoding an encoded well-formed command gives it back, whatever bytes follow and whatever
`MAX_XFER_LEN` is. -/
def Obligations.DecodeOfEncodeIsIdentity : Prop :=
  ∀ (p : Params) (i : Instr) (rest : List Byte), i.WellFormed p → decode (encode i ++ rest) = .ok (i, rest)

/-- The other direction: what decodes is a command's own bytes, so each byte sequence has one meaning; and with
`MAX_XFER_LEN = 255` (R5, R57) the command is well-formed. -/
def Obligations.DecodeReadsOnlyEncodings : Prop :=
  ∀ (bs rest : List Byte) (i : Instr), decode bs = .ok (i, rest) →
    bs = encode i ++ rest ∧ ∀ p : Params, p.maxXferLen = 255 → i.WellFormed p

/-- R56: the opcode is matched exactly against the 18 of R55; a sequence that is too short for its format, or
empty, is refused; every other sequence is a command of that opcode and format. `len` is the length byte,
which only format WR uses. -/
def Obligations.DecoderRefusesExactlyUnassignedAndShort : Prop :=
  decode [] = .error .truncated ∧
  ∀ (op : Byte) (bs : List Byte),
    ((∀ f, (op, f) ∉ opcodeMap) → decode (op :: bs) = .error (.unassignedOpcode op)) ∧
    ∀ f, (op, f) ∈ opcodeMap →
      if (op :: bs).length < f.serialLength (bs.getD 1 0).toNat then decode (op :: bs) = .error .truncated
      else ∃ i rest, decode (op :: bs) = .ok (i, rest) ∧ i.opcode = op ∧ i.format = f ∧
        (op :: bs).length = f.serialLength (bs.getD 1 0).toNat + rest.length

/-- Serialised commands the spec writes out (95 sections 2 to 8) decode to the commands they stand for. -/
def Obligations.SpecWordsDecode : Prop :=
  decode [0x05, 0x12, 0x34, 0x00, 0x13] = .ok (.illuminance 0x1234 0x13, []) ∧
  decode [0x10, 0x02, 0x02, 0xC0, 0x00] = .ok (.writeRegister 0x02 [0xC0, 0x00], []) ∧
  decode [0x11, 0x00, 0x02] = .ok (.readRegister 0x00 2, []) ∧
  decode [0x20, 0x7E] = .ok (.setAddress 0x7E, []) ∧
  decode [0x23, 0x44] = .ok (.beginSession 0x44, []) ∧
  decode [0x28, 0x0F, 0xFF, 0x00, 0x0B] = .ok (.setHighLimit 0xFFF 11, []) ∧
  decode [0x04, 0x32, 0x34, 0x26] = .ok (.decodeResult 0x32 0x34, [0x26]) ∧
  decode [0x28, 0x0F, 0xFF, 0x00] = .error .truncated ∧ decode [0x06] = .error (.unassignedOpcode 0x06)

/-! ## The step -/

/-- R53: a ready block accepts the command the host presents, with `busy = 1`, and runs it. What the host still
has to present is what follows (log 5). -/
def Obligations.StepRunsPresentedCommand : Prop :=
  ∀ (s : State) (bs rest : List Byte) (later : List (List Byte)) (i : Instr),
    s.Ready → s.port = bs :: later → decode bs = .ok (i, rest) →
    step s = exec i { s with port := if rest = [] then later else rest :: later, busy := true }

/-- With no command presented a block with no mark stays as it is (the model's idle step, log 7). -/
def Obligations.StepIdlesWithoutCommand : Prop :=
  ∀ s : State, s.Unmarked → s.port = [] → step s = .next s

/-- R96: a byte sequence that spells no command sets the `refused` mark and does nothing else; from then on the
block has no move, whatever the host presents. -/
def Obligations.RefusalSetsMarkAndStops : Prop :=
  ∀ (s : State) (bs : List Byte) (later : List (List Byte)) (e : DecodeError),
    s.Ready → s.port = bs :: later → decode bs = .error e →
    step s = .next { s with refused := true } ∧
    ∀ port, step { s with refused := true, port := port } = .refused .marked

/-- R95: a command that needs the bus while `dev_addr = none` sets the `fault` mark, makes no call and changes
nothing else (the command has been taken from the port); from then on the block has no move, whatever the host
presents. -/
def Obligations.UnaddressedCommandFaultsAndStops : Prop :=
  ∀ (s : State) (bs rest : List Byte) (later : List (List Byte)) (i : Instr),
    s.Ready → s.port = bs :: later → decode bs = .ok (i, rest) → NeedsAddress i = true → s.devAddr = none →
    ∃ t, step s = .next t ∧
      t = { s with fault := some .usedBeforeAddressed, port := if rest = [] then later else rest :: later } ∧
      ∀ port, step { t with port := port } = .fault (.marked .usedBeforeAddressed)

/-- R111, D23: a command presented while `busy = 1` has no move. -/
def Obligations.CommandWhileBusyHasNoMove : Prop :=
  ∀ (s : State) (bs : List Byte) (later : List (List Byte)),
    s.Unmarked → s.busy = true → s.port = bs :: later → step s = .fault .presentedWhileBusy

/-- The word of an opcode-table row, presented by `withFetchWord`, is the command the next step runs. -/
def Obligations.FetchWordRunsTableCommand : Prop :=
  ∀ (s : State) (nbits w : Nat) (i : Instr), s.Ready → decodeTableWord nbits w = some i →
    step (s.withFetchWord nbits w) = exec i (s.accept s.port)

/-- R57, R92: every command the block accepts answers a next state (`exec`, whatever the state and the operands); none
is refused. `step` accepts no command in a marked or busy state (R95, R96, R111). For a command that needs the bus
while `dev_addr = none` the next state is the one in which the fault mark of R95 is set (log 1). -/
def Obligations.EveryCommandHasAMove : Prop :=
  ∀ (i : Instr) (s : State), ∃ t, exec i s = .next t ∧
    (NeedsAddress i = true → s.devAddr = none → t = s.enterFault .usedBeforeAddressed)

/-! ## Register Codec -/

/-- R40: the two wire functions are the stated bytes and words. A register read back from its own bytes has the value
it was written with, in `REG_WIDTH` bits; two bytes come back as they are from a register that holds both. Widths
other than R5's: the model's choice (log 2). -/
def Obligations.WireOrderRoundTrips : Prop :=
  ∀ (p : Params) (w : Word) (b0 b1 : Byte),
    wireBytes p w = busBytes p w.toNat ∧ (wireWord p b0 b1).toNat = busValue p b0 b1 ∧
    (wireWord p (wireBytes p w).1 (wireBytes p w).2).toNat = w.toNat % 2 ^ p.regWidth ∧
    (16 ≤ p.regWidth → wireWord p (wireBytes p w).1 (wireBytes p w).2 = w ∧
      wireBytes p (wireWord p b0 b1) = (b0, b1))

/-- R62: the laws of the two register layouts, for field inputs of every width (R61). -/
def Obligations.RegisterLayoutsRoundTrip : Prop :=
  (∀ w : Word, packCfg (unpackCfg w).toInputs = w) ∧
  (∀ (k : Nat) (f : FieldInputs k), unpackCfg (packCfg f) = truncCfg f) ∧
  (∀ w : Word, unpackCfg (packCfg (unpackCfg w).toInputs) = unpackCfg w) ∧
  (∀ w : Word, packRes ((readingOf w).setWidth 16) ((exponentOf w).setWidth 16) = w) ∧
  (∀ (k : Nat) (r e : BitVec k), readingOf (packRes r e) = r.setWidth 12 ∧
    exponentOf (packRes r e) = e.setWidth 4)

/-- R67, R59, R61: ENCODE_CONFIG packs each input's low bits at its field's place, and returns the bytes in bus order.
Nothing but the response changes. Widths other than R5's: the model's choice (log 2). -/
def Obligations.EncodeConfigPacksFields : Prop :=
  ∀ (s : State) (f : CfgInputs),
    let v := inputValue s.params
    let w := v f.fc % 4 + v f.me % 2 * 4 + v f.pol % 2 * 8 + v f.l % 2 * 16 + v f.fl % 2 * 32 + v f.fh % 2 * 64 +
      v f.crf % 2 * 128 + v f.ovf % 2 * 256 + v f.m % 4 * 512 + v f.ct % 2 * 2048 + v f.rn % 16 * 4096
    (Instr.encodeConfig f).opcode = 0x01 ∧ (Instr.encodeConfig f).format = .CF ∧
    exec (.encodeConfig f) s = .next (s.returnWith
      ⟨.ok, .wire (busBytes s.params w).1 (busBytes s.params w).2⟩)

/-- R68, R59, R16: DECODE_CONFIG reads each field at its place. Widths other than R5's: the model's choice (log 2). -/
def Obligations.DecodeConfigReadsFields : Prop :=
  ∀ (s : State) (b0 b1 : Byte), let w := busValue s.params b0 b1
    ∃ f : CfgFields, exec (.decodeConfig b0 b1) s = .next (s.returnWith ⟨.ok, .config f⟩) ∧
      f.fc.toNat = w % 4 ∧ f.me.toNat = w / 4 % 2 ∧ f.pol.toNat = w / 8 % 2 ∧ f.l.toNat = w / 16 % 2 ∧
      f.fl.toNat = w / 32 % 2 ∧ f.fh.toNat = w / 64 % 2 ∧ f.crf.toNat = w / 128 % 2 ∧
      f.ovf.toNat = w / 256 % 2 ∧ f.m.toNat = w / 512 % 4 ∧ f.ct.toNat = w / 2048 % 2 ∧
      f.rn.toNat = w / 4096

/-- R69, R60: ENCODE_RESULT packs reading and exponent. Widths other than R5's: the model's choice (log 2). -/
def Obligations.EncodeResultPacksReading : Prop :=
  ∀ (s : State) (r e : Word), let w := inputValue s.params r % 4096 + inputValue s.params e % 16 * 4096
    (Instr.encodeResult r e).opcode = 0x03 ∧ (Instr.encodeResult r e).format = .RF ∧
    exec (.encodeResult r e) s = .next (s.returnWith
      ⟨.ok, .wire (busBytes s.params w).1 (busBytes s.params w).2⟩)

/-- R70, R58: DECODE_RESULT splits a word into reading and exponent. Widths other than R5's: the model's choice (log
2). -/
def Obligations.DecodeResultSplitsWord : Prop :=
  ∀ (s : State) (b0 b1 : Byte), let w := busValue s.params b0 b1
    (Instr.decodeResult b0 b1).opcode = 0x04 ∧ (Instr.decodeResult b0 b1).format = .W2 ∧
    exec (.decodeResult b0 b1) s = .next (s.returnWith
      ⟨.ok, .result (BitVec.ofNat 12 (w % 4096)) (BitVec.ofNat 4 (w / 4096))⟩)

/-- R71, R72: ILLUMINANCE is exact: `mant = r12 * 2^e4` without wrapping, at most 0x7FF8000, and
`lux = mant * LUX_SCALE`. Widths other than R5's: the model's choice (log 2). -/
def Obligations.IlluminanceIsExact : Prop :=
  ∀ (s : State) (r e : Word), ∃ (lux : Rat) (mant : BitVec 27),
    (Instr.illuminance r e).opcode = 0x05 ∧ (Instr.illuminance r e).format = .RF ∧
    exec (.illuminance r e) s = .next (s.returnWith ⟨.ok, .lux lux mant⟩) ∧
    mant.toNat = inputValue s.params r % 4096 * 2 ^ (inputValue s.params e % 16) ∧ mant.toNat ≤ 0x7FF8000 ∧
    lux = (mant.toNat : Rat) * s.params.luxScale

/-- 40_codec.md: the codec commands read only the parameters and write nothing: in any two states with the same
parameters they return the same response, status OK, and all else stays. -/
def Obligations.CodecIsPure : Prop :=
  ∀ (i : Instr) (s s' : State), IsCodec i = true → s.params = s'.params →
    ∃ p : Payload, exec i s = .next (s.returnWith ⟨.ok, p⟩) ∧ exec i s' = .next (s'.returnWith ⟨.ok, p⟩)

/-- ENCODE_CONFIG of a decoded record returns the two bytes exactly, in either wire order. With R5's 16-bit registers
and 16-bit field inputs this is R68's corner case. That it holds too for registers of more than 16 bits and for field
inputs of any other width from 4 bits up is the model's choice (log 2). -/
def Obligations.ConfigRoundTripOnTheBus : Prop :=
  ∀ (s t : State) (b0 b1 : Byte), t.params = s.params → 16 ≤ s.params.regWidth → 4 ≤ s.params.fieldInWidth →
    ∃ f : CfgFields, exec (.decodeConfig b0 b1) s = .next (s.returnWith ⟨.ok, .config f⟩) ∧
      exec (.encodeConfig f.toInputs) t = .next (t.returnWith ⟨.ok, .wire b0 b1⟩)

/-! ## Register Access Layer -/

/-- R76, R74: WRITE_REGISTER sends the pointer and the data in one transaction, whatever the pointer. Widths other
than R5's: the model's choice (log 2). -/
def Obligations.WriteRegisterCompletes : Prop :=
  ∀ (s : State) (a : BusAddr) (reg : Byte) (data : List Byte), s.devAddr = some a → s.Closes 0 →
    exec (.writeRegister reg data) s =
      .next ((s.afterCalls [.beginTxn a, .write (ptrByte s.params reg :: data), .endTxn 0]).returnWith ⟨.ok, .none⟩)

/-- R74: the ways MemWrite fails: each call that raises, and a non-zero close status. No call follows. Widths other
than R5's: the model's choice (log 2). -/
def Obligations.WriteRegisterFailures : Prop :=
  ∀ (s : State) (a : BusAddr) (reg : Byte) (data : List Byte), s.devAddr = some a →
    let fails (evs : List Event) : Prop :=
      exec (.writeRegister reg data) s = .next ((s.afterCalls evs).returnWith ⟨.commError, .none⟩)
    (¬ s.Returns 0 → fails [.exc .beginTxn]) ∧
    (s.Returns 0 → ¬ s.Returns 1 → fails [.beginTxn a, .exc .write]) ∧
    (s.Returns 0 → s.Returns 1 → ¬ s.Returns 2 →
      fails [.beginTxn a, .write (ptrByte s.params reg :: data), .exc .endTxn]) ∧
    (s.Returns 0 → s.Returns 1 → s.Returns 2 → (s.answer 2).status ≠ 0 →
      fails [.beginTxn a, .write (ptrByte s.params reg :: data), .endTxn (s.answer 2).status])

/-- R77, R75: READ_REGISTER that receives every byte makes exactly `len` Avail and `len` ReadByte calls, and returns
the bytes in order, for every length from 0 to 255. Widths other than R5's: the model's choice (log 2). -/
def Obligations.ReadRegisterCompletes : Prop :=
  ∀ (s : State) (a : BusAddr) (reg : Byte) (len : Byte), s.devAddr = some a → s.Reads 0 len.toNat →
    exec (.readRegister reg len) s =
      .next (((s.afterCalls ([.beginTxn a, .write [ptrByte s.params reg], .endTxn 0, .request a len] ++
        s.pairEvents 4 len.toNat)).takeDraws len.toNat).returnWith ⟨.ok, .data (s.bytesFrom 4 len.toNat)⟩)

/-- R75, D8: a read that stops after `i` of `len` bytes makes `i + 1` Avail calls, the last answering 0. Under
`tolerate` it returns OK and the missing bytes are draws; under `commError` it returns COMM_ERROR. Widths other than
R5's: the model's choice (log 2). -/
def Obligations.ReadRegisterShortRead : Prop :=
  ∀ (s : State) (a : BusAddr) (reg : Byte) (len : Byte) (i : Nat), s.devAddr = some a → i < len.toNat →
    s.Closes 0 → s.Returns 3 → s.Delivers 4 i → s.Returns (4 + 2 * i) → (s.answer (4 + 2 * i)).avail = 0 →
    exec (.readRegister reg len) s =
      .next (((s.afterCalls ([.beginTxn a, .write [ptrByte s.params reg], .endTxn 0, .request a len] ++
        s.pairEvents 4 i ++ [.avail 0])).takeDraws len.toNat).returnWith
          (match s.params.shortReadPolicy with
          | .tolerate => ⟨.ok, .data (s.bytesFrom 4 i ++
              (List.range (len.toNat - i)).map fun j => Config.freeByte (s.draws + i + j))⟩
          | .commError => ⟨.commError, .none⟩))

/-- R75, D11: an exception in the read phase: at the request, at an Avail, at a ReadByte. Widths other than R5's: the
model's choice (log 2). -/
def Obligations.ReadRegisterExceptions : Prop :=
  ∀ (s : State) (a : BusAddr) (reg : Byte) (len : Byte), s.devAddr = some a → s.Closes 0 →
    let sent : List Event := [.beginTxn a, .write [ptrByte s.params reg], .endTxn 0]
    (¬ s.Returns 3 → exec (.readRegister reg len) s =
      .next ((s.afterCalls (sent ++ [.exc .request])).returnWith ⟨.commError, .none⟩)) ∧
    ∀ i, i < len.toNat → s.Returns 3 → s.Delivers 4 i →
      (¬ s.Returns (4 + 2 * i) → exec (.readRegister reg len) s =
        .next (((s.afterCalls (sent ++ .request a len :: s.pairEvents 4 i ++ [.exc .avail])).takeDraws
          len.toNat).returnWith ⟨.commError, .none⟩)) ∧
      (s.Returns (4 + 2 * i) → (s.answer (4 + 2 * i)).avail ≠ 0 → ¬ s.Returns (4 + 2 * i + 1) →
        exec (.readRegister reg len) s =
          .next (((s.afterCalls (sent ++ .request a len :: s.pairEvents 4 i ++
            [.avail (s.answer (4 + 2 * i)).avail, .exc .readByte])).takeDraws
              len.toNat).returnWith ⟨.commError, .none⟩))

/-- The source's property 5 (R75, R77, R80, R82, R84 to R86, R88): a non-zero close status of the address phase ends
every reading command with COMM_ERROR and no Request; CHECK_COMMS and BEGIN end in `Addressed`. Widths other than
R5's: the model's choice (log 2). -/
def Obligations.AddressPhaseFailureStopsRead : Prop :=
  ∀ (s : State), s.Returns 0 → s.Returns 1 → s.Returns 2 → (s.answer 2).status ≠ 0 →
    let after (t : State) (a : BusAddr) (ptr : Byte) : Result :=
      .next ((t.afterCalls [.beginTxn a, .write [ptrByte s.params ptr], .endTxn (s.answer 2).status]).returnWith
        ⟨.commError, .none⟩)
    (∀ a, s.devAddr = some a →
      (∀ reg len, exec (.readRegister reg len) s = after s a reg) ∧ exec .readConfig s = after s a 0x01 ∧
      exec .getIlluminance s = after s a 0x00 ∧ exec .getHighLimit s = after s a 0x03 ∧
      exec .getLowLimit s = after s a 0x02 ∧ exec .checkComms s = after (s.setSess .addressed) a 0x7E) ∧
    ∀ raw, let a : BusAddr := normAddr s.params raw
      exec (.beginSession raw) s = after ((s.setDevAddr a).setSess .addressed) a 0x7E

/-! ## Sensor Session -/

/-- R79, R34, R35: SET_ADDRESS stores `normAddr(raw)` and `sess = Addressed`, from every state, with no transport
call. Bit by bit the address is `ADDR_BASE | (raw & ADDR_SEL_MASK)`, of `BUS_ADDR_WIDTH` bits; with R34's two values
and 7 bits it is `0x44 + raw mod 4`, one of the four addresses. Widths other than R5's: the model's choice (log 2). -/
def Obligations.SetAddressNormalises : Prop :=
  ∀ (s : State) (raw : Byte), let a : BusAddr := normAddr s.params raw
    (∀ n, n < 8 → a.getLsbD n = (decide (n < s.params.busAddrWidth) &&
      (s.params.addrBase.getLsbD n || (raw.getLsbD n && s.params.addrSelMask.getLsbD n)))) ∧
    (Params.SpecAddr s.params → a.toNat = 0x44 + raw.toNat % 4 ∧ LegalAddr a) ∧
    (Instr.setAddress raw).opcode = 0x20 ∧ (Instr.setAddress raw).format = .B ∧
    exec (.setAddress raw) s =
      .next (((s.setDevAddr a).setSess .addressed).returnWith ⟨.ok, .none⟩)

/-- R80: CHECK_COMMS that reads the expected identity returns OK; `Addressed` becomes `Verified`, every other state is
kept. Widths other than R5's: the model's choice (log 2). -/
def Obligations.CheckCommsVerifies : Prop :=
  ∀ (s : State) (a : BusAddr), s.devAddr = some a → s.Reads 0 2 → s.wordFrom 0 = s.params.mfrIdExpected →
    exec .checkComms s = .next (((s.afterRead a 0x7E 2).setSess
      (if s.sess = .addressed then .verified else s.sess)).returnWith ⟨.ok, .none⟩)

/-- R80: CHECK_COMMS that reads another word returns IDENTITY_MISMATCH and leaves `Addressed`. Widths other than R5's:
the model's choice (log 2). -/
def Obligations.CheckCommsRejectsOtherIdentity : Prop :=
  ∀ (s : State) (a : BusAddr), s.devAddr = some a → s.Reads 0 2 → s.wordFrom 0 ≠ s.params.mfrIdExpected →
    exec .checkComms s =
      .next (((s.afterRead a 0x7E 2).setSess .addressed).returnWith ⟨.identityMismatch, .none⟩)

/-- R81: APPLY_CONFIG writes `soft_cfg` as held to pointer 0x01; `Verified` and `Configured` end in `Configured`,
every other state is kept. Widths other than R5's: the model's choice (log 2). -/
def Obligations.ApplyConfigPushesSoftConfig : Prop :=
  ∀ (s : State) (a : BusAddr), s.devAddr = some a → s.Closes 0 →
    let b := busBytes s.params s.softCfg.toNat
    exec .applyConfig s =
      .next (((s.afterCalls [.beginTxn a, .write [ptrByte s.params 0x01, b.1, b.2], .endTxn 0]).setSess
        (if s.sess = .verified ∨ s.sess = .configured then .configured else s.sess)).returnWith ⟨.ok, .none⟩)

/-- R81: however the configuration write fails, APPLY_CONFIG returns COMM_ERROR and drops `Configured` to `Verified`.
Widths other than R5's: the model's choice (log 2). -/
def Obligations.ApplyConfigFailureDropsConfigured : Prop :=
  ∀ (s : State) (a : BusAddr), s.devAddr = some a →
    let b := busBytes s.params s.softCfg.toNat
    ∀ evs, s.WriteBreaks 0 a [ptrByte s.params 0x01, b.1, b.2] evs →
      exec .applyConfig s =
        .next (((s.afterCalls evs).setSess
          (if s.sess = .configured then .verified else s.sess)).returnWith ⟨.commError, .none⟩)

/-- R82: BEGIN that reads the expected identity and whose push goes through ends in `Configured` with OK, from every
state; `H` gains the identity read and the configuration write. Widths other than R5's: the model's choice (log 2). -/
def Obligations.BeginConfigures : Prop :=
  ∀ (s : State) (raw : Byte), s.Reads 0 2 → s.wordFrom 0 = s.params.mfrIdExpected → s.Closes 8 →
    let a : BusAddr := normAddr s.params raw
    let b := busBytes s.params s.softCfg.toNat
    exec (.beginSession raw) s =
      .next (((((s.setDevAddr a).setSess .configured).afterCalls (s.readEvents 0 a 0x7E 2 ++
        ([.beginTxn a, .write [ptrByte s.params 0x01, b.1, b.2], .endTxn 0] : List Event))).takeDraws 2).returnWith
          ⟨.ok, .none⟩)

/-- R82, the source's property 4: after another identity word BEGIN returns IDENTITY_MISMATCH in `Addressed`, and `H`
gains the identity read alone: no configuration write. Widths other than R5's: the model's choice (log 2). -/
def Obligations.BeginStopsAtOtherIdentity : Prop :=
  ∀ (s : State) (raw : Byte), s.Reads 0 2 → s.wordFrom 0 ≠ s.params.mfrIdExpected →
    let a : BusAddr := normAddr s.params raw
    exec (.beginSession raw) s =
      .next (((((s.setDevAddr a).setSess .addressed).afterCalls
        (s.readEvents 0 a 0x7E 2)).takeDraws 2).returnWith ⟨.identityMismatch, .none⟩)

/-- R82, D10, R74, R75: however the identity read fails, BEGIN returns COMM_ERROR in `Addressed` and makes no further
call; however the configuration write fails, it returns COMM_ERROR in `Verified`. (After a short identity read that is
tolerated: SessionGetterShortRead.) Widths other than R5's: the model's choice (log 2). -/
def Obligations.BeginTransportFailures : Prop :=
  ∀ (s : State) (raw : Byte), let a : BusAddr := normAddr s.params raw
    let b := busBytes s.params s.softCfg.toNat
    (∀ evs d, s.ReadBreaks 0 a 0x7E 2 evs d →
      exec (.beginSession raw) s =
        .next (((((s.setDevAddr a).setSess .addressed).afterCalls evs).takeDraws d).returnWith
          ⟨.commError, .none⟩)) ∧
    (s.Reads 0 2 → s.wordFrom 0 = s.params.mfrIdExpected →
      ∀ evs, s.WriteBreaks 8 a [ptrByte s.params 0x01, b.1, b.2] evs →
      exec (.beginSession raw) s =
        .next (((((s.setDevAddr a).setSess .verified).afterCalls (s.readEvents 0 a 0x7E 2 ++ evs)).takeDraws
          2).returnWith ⟨.commError, .none⟩))

/-- R82, R66: BEGIN equals SET_ADDRESS, CHECK_COMMS, then APPLY_CONFIG if CHECK_COMMS returned OK: the same state
but for the responses, and the status of the last command run. For every answer of the transport. -/
def Obligations.BeginEqualsCommandSequence : Prop :=
  ∀ (s t : State) (raw : Byte), exec (.beginSession raw) s = .next t →
    ∃ s₁ s₂ s₃ : State, exec (.setAddress raw) s = .next s₁ ∧ exec .checkComms s₁ = .next s₂ ∧
      (if s₂.lastStatus = some .ok then exec .applyConfig s₂ = .next s₃ else s₃ = s₂) ∧
      t.lastStatus = s₃.lastStatus ∧ t = { s₃ with responses := t.responses }

/-- R83, R54, R61: SET_CONFIG replaces exactly the selected fields, each by its truncated input, in every state;
nothing else changes. Widths other than R5's: the model's choice (log 2). -/
def Obligations.SetConfigReplacesSelectedFields : Prop :=
  ∀ (s : State) (sel : Word) (f : CfgInputs), ∃ w : Word,
    (Instr.setConfig sel f).opcode = 0x24 ∧ (Instr.setConfig sel f).format = .CFM ∧
    exec (.setConfig sel f) s = .next ((s.setSoftCfg w).returnWith ⟨.ok, .none⟩) ∧
    let old := unpackCfg s.softCfg
    unpackCfg w =
      { fc  := if sel.getLsbD 0 then BitVec.ofNat 2 (inputValue s.params f.fc) else old.fc
        me  := if sel.getLsbD 1 then BitVec.ofNat 1 (inputValue s.params f.me) else old.me
        pol := if sel.getLsbD 2 then BitVec.ofNat 1 (inputValue s.params f.pol) else old.pol
        l   := if sel.getLsbD 3 then BitVec.ofNat 1 (inputValue s.params f.l) else old.l
        fl  := if sel.getLsbD 4 then BitVec.ofNat 1 (inputValue s.params f.fl) else old.fl
        fh  := if sel.getLsbD 5 then BitVec.ofNat 1 (inputValue s.params f.fh) else old.fh
        crf := if sel.getLsbD 6 then BitVec.ofNat 1 (inputValue s.params f.crf) else old.crf
        ovf := if sel.getLsbD 7 then BitVec.ofNat 1 (inputValue s.params f.ovf) else old.ovf
        m   := if sel.getLsbD 8 then BitVec.ofNat 2 (inputValue s.params f.m) else old.m
        ct  := if sel.getLsbD 9 then BitVec.ofNat 1 (inputValue s.params f.ct) else old.ct
        rn  := if sel.getLsbD 10 then BitVec.ofNat 4 (inputValue s.params f.rn) else old.rn }

/-- R84: READ_CONFIG returns the fields of the word read at pointer 0x01; `soft_cfg` is not written. Widths other than
R5's: the model's choice (log 2). -/
def Obligations.ReadConfigReturnsDeviceFields : Prop :=
  ∀ (s : State) (a : BusAddr), s.devAddr = some a → s.Reads 0 2 →
    exec .readConfig s = .next ((s.afterRead a 0x01 2).returnWith ⟨.ok, .config (unpackCfg (s.wordFrom 0))⟩)

/-- R85, R71: GET_ILLUMINANCE returns the illuminance of the word read at pointer 0x00. Widths other than R5's: the
model's choice (log 2). -/
def Obligations.GetIlluminanceReadsResult : Prop :=
  ∀ (s : State) (a : BusAddr), s.devAddr = some a → s.Reads 0 2 →
    ∃ (lux : Rat) (mant : BitVec 27),
      exec .getIlluminance s = .next ((s.afterRead a 0x00 2).returnWith ⟨.ok, .lux lux mant⟩) ∧
      mant.toNat = (s.wordFrom 0).toNat % 4096 * 2 ^ ((s.wordFrom 0).toNat / 4096) ∧
      lux = (mant.toNat : Rat) * s.params.luxScale

/-- R86, R88: GET_HIGH_LIMIT and GET_LOW_LIMIT return reading and exponent of the word read at pointers 0x03 and 0x02.
Widths other than R5's: the model's choice (log 2). -/
def Obligations.LimitGettersReadTheirRegister : Prop :=
  ∀ (s : State) (a : BusAddr), s.devAddr = some a → s.Reads 0 2 →
    let p : Payload := .result (BitVec.ofNat 12 ((s.wordFrom 0).toNat % 4096))
      (BitVec.ofNat 4 ((s.wordFrom 0).toNat / 4096))
    exec .getHighLimit s = .next ((s.afterRead a 0x03 2).returnWith ⟨.ok, p⟩) ∧
    exec .getLowLimit s = .next ((s.afterRead a 0x02 2).returnWith ⟨.ok, p⟩)

/-- R87, R89: SET_HIGH_LIMIT and SET_LOW_LIMIT write the packed Result Word to pointers 0x03 and 0x02. Widths other
than R5's: the model's choice (log 2). -/
def Obligations.LimitSettersWriteTheirRegister : Prop :=
  ∀ (s : State) (a : BusAddr) (r e : Word), s.devAddr = some a → s.Closes 0 →
    let b := busBytes s.params (inputValue s.params r % 4096 + inputValue s.params e % 16 * 4096)
    let after (ptr : Byte) : Result :=
      .next ((s.afterCalls [.beginTxn a, .write [ptrByte s.params ptr, b.1, b.2], .endTxn 0]).returnWith
        ⟨.ok, .none⟩)
    exec (.setHighLimit r e) s = after 0x03 ∧ exec (.setLowLimit r e) s = after 0x02

/-- R75, R80, R82, D8: a short read inside a session command, after 0 or 1 byte. Under `tolerate` the word is made of
the bytes received and of drawn bytes, in wire order: the getters return its value; CHECK_COMMS and BEGIN compare it
with `MFR_ID_EXPECTED` and give OK or IDENTITY_MISMATCH (BEGIN's OK once its configuration write goes through; where
that fails, COMM_ERROR in `Verified`). Under `commError` the command returns COMM_ERROR, CHECK_COMMS and BEGIN in
`Addressed`. Widths other than R5's: the model's choice (log 2). -/
def Obligations.SessionGetterShortRead : Prop :=
  ∀ (s : State) (i : Nat), i < 2 → s.Closes 0 → s.Returns 3 →
    s.Delivers 4 i → s.Returns (4 + 2 * i) → (s.answer (4 + 2 * i)).avail = 0 →
    let b0 := if i = 0 then Config.freeByte s.draws else (s.answer 5).byte
    let w : Word := wireWord s.params b0 (Config.freeByte (s.draws + 1))
    let read (a : BusAddr) (ptr : Byte) : List Event :=
      [.beginTxn a, .write [ptrByte s.params ptr], .endTxn 0, .request a 2] ++ s.pairEvents 4 i ++ [.avail 0]
    let ends (t : State) (evs : List Event) (r : Response) : Result :=
      .next (((t.afterCalls evs).takeDraws 2).returnWith r)
    (s.params.shortReadPolicy = .tolerate →
      (∀ a, s.devAddr = some a →
        exec .readConfig s = ends s (read a 0x01) ⟨.ok, .config (unpackCfg w)⟩ ∧
        exec .getIlluminance s =
          ends s (read a 0x00) ⟨.ok, luxPayload s.params.luxScale (readingOf w) (exponentOf w)⟩ ∧
        exec .getHighLimit s = ends s (read a 0x03) ⟨.ok, .result (readingOf w) (exponentOf w)⟩ ∧
        exec .getLowLimit s = ends s (read a 0x02) ⟨.ok, .result (readingOf w) (exponentOf w)⟩ ∧
        (w = s.params.mfrIdExpected → exec .checkComms s =
          ends (s.setSess (if s.sess = .addressed then .verified else s.sess)) (read a 0x7E) ⟨.ok, .none⟩) ∧
        (w ≠ s.params.mfrIdExpected → exec .checkComms s =
          ends (s.setSess .addressed) (read a 0x7E) ⟨.identityMismatch, .none⟩)) ∧
      ∀ raw, let a : BusAddr := normAddr s.params raw
        let b := busBytes s.params s.softCfg.toNat
        (w ≠ s.params.mfrIdExpected → exec (.beginSession raw) s =
          ends ((s.setDevAddr a).setSess .addressed) (read a 0x7E) ⟨.identityMismatch, .none⟩) ∧
        (w = s.params.mfrIdExpected → s.Closes (5 + 2 * i) → exec (.beginSession raw) s =
          ends ((s.setDevAddr a).setSess .configured)
            (read a 0x7E ++ s.writeEvents (5 + 2 * i) a [ptrByte s.params 0x01, b.1, b.2]) ⟨.ok, .none⟩) ∧
        (w = s.params.mfrIdExpected → ∀ evs, s.WriteBreaks (5 + 2 * i) a [ptrByte s.params 0x01, b.1, b.2] evs →
          exec (.beginSession raw) s =
            ends ((s.setDevAddr a).setSess .verified) (read a 0x7E ++ evs) ⟨.commError, .none⟩)) ∧
    (s.params.shortReadPolicy = .commError →
      (∀ a, s.devAddr = some a →
        exec .readConfig s = ends s (read a 0x01) ⟨.commError, .none⟩ ∧
        exec .getIlluminance s = ends s (read a 0x00) ⟨.commError, .none⟩ ∧
        exec .getHighLimit s = ends s (read a 0x03) ⟨.commError, .none⟩ ∧
        exec .getLowLimit s = ends s (read a 0x02) ⟨.commError, .none⟩ ∧
        exec .checkComms s = ends (s.setSess .addressed) (read a 0x7E) ⟨.commError, .none⟩) ∧
      ∀ raw, let a : BusAddr := normAddr s.params raw
        exec (.beginSession raw) s =
          ends ((s.setDevAddr a).setSess .addressed) (read a 0x7E) ⟨.commError, .none⟩)

/-! ## Frames and whole-machine rules -/

/-- R76, R77, R84 to R89: whatever the transport answers, these commands leave every register of the block, the
parameters, the refusal mark and the port as they were. -/
def Obligations.FramePlainAccessCommands : Prop :=
  ∀ (i : Instr) (s t : State), IsPlainAccess i = true → exec i s = .next t →
    t.params = s.params ∧ t.sess = s.sess ∧ t.devAddr = s.devAddr ∧ t.softCfg = s.softCfg ∧
    t.refused = s.refused ∧ t.port = s.port ∧ t.busy = false ∧
    (s.devAddr ≠ none → t.fault = s.fault) ∧ (s.devAddr = none → t.responses = s.responses ∧ t.hist = s.hist)

/-- R80, R81: CHECK_COMMS and APPLY_CONFIG write `sess` alone. -/
def Obligations.FrameVerifyAndApply : Prop :=
  ∀ (i : Instr) (s t : State), i = .checkComms ∨ i = .applyConfig → exec i s = .next t →
    t.params = s.params ∧ t.devAddr = s.devAddr ∧ t.softCfg = s.softCfg ∧ t.refused = s.refused ∧
    t.port = s.port ∧ t.busy = false ∧ (s.devAddr ≠ none → t.fault = s.fault) ∧
    (s.devAddr = none → t.sess = s.sess ∧ t.responses = s.responses ∧ t.hist = s.hist)

/-- R79, R82: SET_ADDRESS and BEGIN write `dev_addr` and `sess` alone, and never fault. Widths other than R5's: the
model's choice (log 2). -/
def Obligations.FrameAddressAndBegin : Prop :=
  ∀ (i : Instr) (raw : Byte) (s t : State), i = .setAddress raw ∨ i = .beginSession raw →
    exec i s = .next t →
    t.devAddr = some (normAddr s.params raw) ∧ t.params = s.params ∧ t.softCfg = s.softCfg ∧ t.fault = s.fault ∧
    t.refused = s.refused ∧ t.port = s.port ∧ t.busy = false

/-- R40, R5: no step changes a parameter: the wire order cannot be switched at run time. -/
def Obligations.ParametersNeverChange : Prop :=
  ∀ s t : State, step s = .next t → t.params = s.params

/-- R15: only SET_CONFIG writes `soft_cfg`. -/
def Obligations.OnlySetConfigWritesSoftCfg : Prop :=
  ∀ (i : Instr) (s t : State), exec i s = .next t → t.softCfg ≠ s.softCfg → ∃ sel f, i = .setConfig sel f

/-- R13: only SET_ADDRESS and BEGIN write `dev_addr`, with the normalised address. Widths other than R5's: the model's
choice (log 2). -/
def Obligations.OnlyAddressingWritesDevAddr : Prop :=
  ∀ (i : Instr) (s t : State), exec i s = .next t → t.devAddr ≠ s.devAddr →
    ∃ raw, (i = .setAddress raw ∨ i = .beginSession raw) ∧ t.devAddr = some (normAddr s.params raw)

/-- R90: the session-state table, row by row, and no command returns `sess` to `Unstarted`. BEGIN's two CommError rows
are told apart by the command's own calls: it is the configuration write that failed exactly where a second
transaction was tried. A command that faults for want of an address leaves `sess`. -/
def Obligations.SessionMovesFollowTable : Prop :=
  ∀ (i : Instr) (s t : State), exec i s = .next t →
    (t.sess = .unstarted → s.sess = .unstarted) ∧
    if NeedsAddress i = true ∧ s.devAddr = none then
      t.sess = s.sess ∧ t.fault = some .usedBeforeAddressed
    else ∃ evs st, t.hist = s.hist ++ evs ∧ t.lastStatus = some st ∧ SessMove i s.sess evs st t.sess

/-- R93, R94, R55: a command that does not fault returns exactly one response; a failed one has no payload, one
with status OK has the payload its row of the opcode map gives; IDENTITY_MISMATCH comes from CHECK_COMMS and
BEGIN only, COMM_ERROR from the commands that use the bus only. -/
def Obligations.OneResponsePerCommand : Prop :=
  ∀ (i : Instr) (s t : State), exec i s = .next t → ¬ (NeedsAddress i = true ∧ s.devAddr = none) →
    ∃ r, t.responses = s.responses ++ [r] ∧ (r.status ≠ .ok → r.payload = .none) ∧
      (r.status = .ok → PayloadKind i r.payload) ∧
      (r.status = .identityMismatch → i = .checkComms ∨ ∃ raw, i = .beginSession raw) ∧
      (r.status = .commError → NeedsAddress i = true ∨ ∃ raw, i = .beginSession raw)

/-- R38, R33, R48: `H` only grows, one event and one answer per call, in order; and every Begin and Request the
command makes names the device address it leaves held. -/
def Obligations.HistoryRecordsEveryCall : Prop :=
  ∀ (i : Instr) (s t : State), exec i s = .next t →
    ∃ evs, t.hist = s.hist ++ evs ∧ t.script = s.script.drop evs.length ∧
      t.calls = s.calls + evs.length ∧
      ∀ e ∈ evs, ∀ a, (e = .beginTxn a ∨ ∃ n, e = .request a n) → t.devAddr = some a

/-- R93, R94, R75: a command returns COMM_ERROR exactly when one of its calls failed, and the failing call is its last:
an exception or a non-zero close status, and under the policy `commError` also a count of zero. -/
def Obligations.CommErrorExactlyOnFailedCall : Prop :=
  ∀ (i : Instr) (s t : State), exec i s = .next t → ¬ (NeedsAddress i = true ∧ s.devAddr = none) →
    let fails (e : Event) : Bool := e.raises s.params.shortReadPolicy
    ∃ evs, t.hist = s.hist ++ evs ∧ (∀ e ∈ evs.dropLast, fails e = false) ∧
      (t.lastStatus = some .commError ↔ ∃ e ∈ evs, fails e = true)

/-- R45: no retry and no read-ahead: a command makes only the accesses its rule lists, counting each call of `T.begin`
and `T.request` whether it returns or raises. The codec commands, SET_ADDRESS and SET_CONFIG make none; the writing
commands call `T.begin` once at most and `T.request` never; the reading commands call each once at most; BEGIN calls
`T.begin` twice at most and `T.request` once. -/
def Obligations.NoRetriesNoReadAhead : Prop :=
  ∀ (i : Instr) (s t : State), exec i s = .next t →
    ∃ evs, t.hist = s.hist ++ evs ∧
      evs.countP Event.triesBegin ≤ maxBegins i ∧ evs.countP Event.triesRequest ≤ maxRequests i

/-- R92, R117: no command but those that fault looks at `sess` to decide whether it runs: what it returns does not
depend on `sess`. -/
def Obligations.SessionStateGatesNothing : Prop :=
  ∀ (i : Instr) (s t t' : State) (u : SessState), exec i s = .next t → exec i { s with sess := u } = .next t' →
    t' = { t with sess := t'.sess }

/-! ## Ports and text -/

/-- R53, R12, R55, R93: the status outputs show the registers and the response outputs the newest response, with
the stated codes (before any response there is none: log 6). -/
def Obligations.StatusPortShowsRegisters : Prop :=
  ∀ s : State, s.statusPort.busy = s.busy ∧ s.statusPort.softCfg = s.softCfg ∧
    s.statusPort.devAddrValid = s.devAddr.isSome ∧ (∀ a, s.devAddr = some a → s.statusPort.devAddr = a) ∧
    s.statusPort.sess = (match s.sess with
      | .unstarted => 0b00 | .addressed => 0b01 | .verified => 0b10 | .configured => 0b11) ∧
    (s.responses = [] → s.responsePort = none) ∧
    ∀ r, s.responses.getLast? = some r → s.responsePort = some (match r.status with
      | .ok => 0b00 | .commError => 0b01 | .identityMismatch => 0b10, r.payload)

/-- Lines of R66 and of 95 section 8 stand for the commands they name. -/
def Obligations.SpecLinesAssemble : Prop :=
  Asm.assemble "SET_ADDRESS 0x44" = some (.setAddress 0x44) ∧
  Asm.assemble "DECODE_CONFIG 0xC8, 0x10" = some (.decodeConfig 0xC8 0x10) ∧
  Asm.assemble "WRITE_REGISTER 0x02, [0xC0, 0x00]" = some (.writeRegister 0x02 [0xC0, 0x00]) ∧
  Asm.assemble "SET_HIGH_LIMIT r=0xFFF, e=11" = some (.setHighLimit 0xFFF 11) ∧
  Asm.assemble "SET_CONFIG m=2, ct=1" = some (.setConfig 0x300 ⟨0, 0, 0, 0, 0, 0, 0, 0, 2, 1, 0⟩) ∧
  Asm.assemble "GET_LOW_LIMIT" = some .getLowLimit
end

