-- ==== Sys2Proof/Laws/Codec.lean ====
section
/-! SUPPORT. The small lemmas of the word, wire-order and pack functions, and of the operand readers. -/
namespace Sys2Proof

/-! ## Words and bytes -/

theorem word_hi_toNat (w : Word) : w.hi.toNat = w.toNat / 256 := by
  simp [Word.hi, BitVec.extractLsb'_toNat, Nat.shiftRight_eq_div_pow]
  omega

theorem word_lo_toNat (w : Word) : w.lo.toNat = w.toNat % 256 := by
  simp [Word.lo, BitVec.extractLsb'_toNat]

theorem word_ofBytes_toNat (a b : Byte) : (Word.ofBytes a b).toNat = a.toNat * 256 + b.toNat := by
  rw [Word.ofBytes, BitVec.toNat_append, Nat.shiftLeft_eq, Nat.mul_comm]
  exact (Nat.two_pow_add_eq_or_of_lt b.isLt a.toNat).symm.trans (by omega)

theorem word_ofBytes_hi_lo (w : Word) : Word.ofBytes w.hi w.lo = w := by
  apply BitVec.eq_of_toNat_eq
  rw [word_ofBytes_toNat, word_hi_toNat, word_lo_toNat]
  omega

theorem word_hi_ofBytes (a b : Byte) : (Word.ofBytes a b).hi = a := by
  apply BitVec.eq_of_toNat_eq
  have := b.isLt
  rw [word_hi_toNat, word_ofBytes_toNat]
  omega

theorem word_lo_ofBytes (a b : Byte) : (Word.ofBytes a b).lo = b := by
  apply BitVec.eq_of_toNat_eq
  have := b.isLt
  rw [word_lo_toNat, word_ofBytes_toNat]
  omega

/-! ## Operand readers -/

@[simp] theorem readByte8_cons (b : Byte) (bs : List Byte) : readByte8 (b :: bs) = some (b, bs) := rfl

@[simp] theorem readWord16_putWord (w : Word) (bs : List Byte) : readWord16 (putWord w ++ bs) = some (w, bs) := by
  simp [putWord, readWord16, word_ofBytes_hi_lo]

/-- A reader that undoes a writer, whatever bytes follow. -/
def Reader.Undoes {α : Type} (p : Reader α) (put : α → List Byte) : Prop :=
  ∀ x bs, p (put x ++ bs) = some (x, bs)

theorem readWord16_undoes : Reader.Undoes readWord16 putWord := readWord16_putWord

theorem readPair_undoes {α β : Type} {p : Reader α} {q : Reader β} {f : α → List Byte} {g : β → List Byte}
    (hp : p.Undoes f) (hq : q.Undoes g) : (readPair p q).Undoes fun x => f x.1 ++ g x.2 := by
  intro x bs
  simp [readPair, List.append_assoc, hp x.1, hq x.2 bs]

theorem readBytes_append (data bs : List Byte) : readBytes data.length (data ++ bs) = some (data, bs) := by
  induction data with
  | nil => cases bs <;> rfl
  | cons b ds ih => simp [readBytes, ih]

theorem readBytes_some {n : Nat} {bs data rest : List Byte} (h : readBytes n bs = some (data, rest)) :
    data.length = n ∧ bs = data ++ rest := by
  induction n generalizing bs data with
  | zero => cases bs <;> simp_all [readBytes]
  | succ n ih =>
    cases bs with
    | nil => simp [readBytes] at h
    | cons b bs =>
      rw [readBytes] at h
      split at h
      · cases h
      · next hr =>
        simp only [Option.some.injEq, Prod.mk.injEq] at h
        obtain ⟨rfl, rfl⟩ := h
        obtain ⟨h1, h2⟩ := ih hr
        simp [h1, h2]

theorem readCfg_undoes : readCfg.Undoes putCfg := by
  intro f bs
  simp [readCfg, putCfg, readPair, List.append_assoc]

end Sys2Proof

namespace Sys2Proof.Machine

/-! ## Widths -/

@[simp] theorem trunc_toNat {k : Nat} (n : Nat) (v : BitVec k) : (trunc n v).toNat = v.toNat % 2 ^ n := by
  rw [trunc, BitVec.toNat_ofNat]
  exact Nat.mod_eq_of_lt (Nat.lt_of_le_of_lt (Nat.mod_le _ _) v.isLt)

theorem trunc_getLsbD {k : Nat} (n : Nat) (v : BitVec k) (i : Nat) :
    (trunc n v).getLsbD i = (decide (i < n) && v.getLsbD i) := by
  simp only [BitVec.getLsbD, trunc_toNat, Nat.testBit_mod_two_pow]

/-- A value that has no more bits than the width loses none. -/
theorem trunc_of_le {k n : Nat} (h : k ≤ n) (v : BitVec k) : trunc n v = v := by
  apply BitVec.eq_of_toNat_eq
  rw [trunc_toNat]
  exact Nat.mod_eq_of_lt (Nat.lt_of_lt_of_le v.isLt (Nat.pow_le_pow_right (by decide) h))

theorem ptrByte_of_le {p : Params} (h : 8 ≤ p.ptrWidth) (reg : Byte) : ptrByte p reg = reg := trunc_of_le h reg

@[simp] theorem fieldInput_toNat (p : Params) (v : Word) : (fieldInput p v).toNat = inputValue p v :=
  trunc_toNat _ v

/-- A field input reduced to `w` bits, by arithmetic (R61). -/
theorem fieldInput_setWidth (p : Params) (w : Nat) (v : Word) :
    (fieldInput p v).setWidth w = BitVec.ofNat w (inputValue p v) :=
  BitVec.eq_of_toNat_eq (by simp)

/-! ## Wire order -/

theorem wireBytes_eq_busBytes (p : Params) (w : Word) : wireBytes p w = busBytes p w.toNat := by
  have h (v : Word) : v.hi = BitVec.ofNat 8 (v.toNat / 256) ∧ v.lo = BitVec.ofNat 8 (v.toNat % 256) :=
    ⟨BitVec.eq_of_toNat_eq (by rw [word_hi_toNat]; simp; omega),
      BitVec.eq_of_toNat_eq (by rw [word_lo_toNat]; simp)⟩
  unfold wireBytes busBytes
  cases p.wireOrder <;> simp only [h, trunc_toNat]

theorem wireWord_toNat (p : Params) (b0 b1 : Byte) : (wireWord p b0 b1).toNat = busValue p b0 b1 := by
  unfold wireWord busValue
  cases p.wireOrder <;> simp only [trunc_toNat, word_ofBytes_toNat]

/-- A register read back from the bytes it was written as, of any `REG_WIDTH`. -/
theorem wireWord_wireBytes (p : Params) (w : Word) :
    wireWord p (wireBytes p w).1 (wireBytes p w).2 = trunc p.regWidth w := by
  unfold wireWord wireBytes
  cases p.wireOrder <;> exact BitVec.eq_of_toNat_eq (by simp [word_ofBytes_hi_lo])

/-- The bytes of a register that holds both of them. -/
theorem wireBytes_wireWord {p : Params} (h : 16 ≤ p.regWidth) (b0 b1 : Byte) :
    wireBytes p (wireWord p b0 b1) = (b0, b1) := by
  unfold wireWord wireBytes
  cases p.wireOrder <;> simp only [trunc_of_le h, word_hi_ofBytes, word_lo_ofBytes]

/-! ## The register layouts, bit by bit -/

theorem placeField_getLsbD {k : Nat} (w pos : Nat) (v : BitVec k) (i : Nat) :
    (placeField w pos v).getLsbD i = (decide (i < 16) && (decide (pos ≤ i) && (decide (i - pos < w) &&
      v.getLsbD (i - pos)))) := by
  simp only [placeField, BitVec.getLsbD_shiftLeft, BitVec.getLsbD_setWidth]
  have hn : i < 16 → i - pos < 16 := fun h => by omega
  by_cases h : pos ≤ i <;> by_cases h' : i < 16 <;> simp [h, h', hn]

/-- A field that fits the word is its input's low bits, at its place. -/
theorem placeField_toNat {k w pos : Nat} (h : w + pos ≤ 16) (v : BitVec k) :
    (placeField w pos v).toNat = v.toNat % 2 ^ w * 2 ^ pos := by
  have h1 : v.toNat % 2 ^ w * 2 ^ pos < 2 ^ 16 :=
    calc v.toNat % 2 ^ w * 2 ^ pos < 2 ^ w * 2 ^ pos :=
          Nat.mul_lt_mul_of_pos_right (Nat.mod_lt _ (Nat.two_pow_pos w)) (Nat.two_pow_pos pos)
      _ = 2 ^ (w + pos) := (Nat.pow_add 2 w pos).symm
      _ ≤ 2 ^ 16 := Nat.pow_le_pow_right (by decide) h
  have h2 : v.toNat % 2 ^ w < 2 ^ 16 := Nat.lt_of_le_of_lt (Nat.le_mul_of_pos_right _ (Nat.two_pow_pos pos)) h1
  rw [placeField, BitVec.toNat_shiftLeft, BitVec.toNat_setWidth, BitVec.toNat_setWidth, Nat.shiftLeft_eq,
    Nat.mod_eq_of_lt h2, Nat.mod_eq_of_lt h1]

/-- A case distinction over the 16 bits of a word. -/
theorem bit16_cases {i : Nat} (h : i < 16) : i = 0 ∨ i = 1 ∨ i = 2 ∨ i = 3 ∨ i = 4 ∨ i = 5 ∨ i = 6 ∨ i = 7 ∨
    i = 8 ∨ i = 9 ∨ i = 10 ∨ i = 11 ∨ i = 12 ∨ i = 13 ∨ i = 14 ∨ i = 15 := by omega

/-- Which input bit each bit of the packed word is (R59). -/
theorem packCfg_getLsbD {k : Nat} (f : FieldInputs k) (i : Nat) (h : i < 16) : (packCfg f).getLsbD i =
    match i with
    | 0 => f.fc.getLsbD 0 | 1 => f.fc.getLsbD 1 | 2 => f.me.getLsbD 0 | 3 => f.pol.getLsbD 0
    | 4 => f.l.getLsbD 0 | 5 => f.fl.getLsbD 0 | 6 => f.fh.getLsbD 0 | 7 => f.crf.getLsbD 0
    | 8 => f.ovf.getLsbD 0 | 9 => f.m.getLsbD 0 | 10 => f.m.getLsbD 1 | 11 => f.ct.getLsbD 0
    | n => f.rn.getLsbD (n - 12) := by
  rcases bit16_cases h with rfl | rfl | rfl | rfl | rfl | rfl | rfl | rfl | rfl | rfl | rfl | rfl | rfl | rfl |
    rfl | rfl <;>
  simp only [packCfg, BitVec.getLsbD_or, placeField_getLsbD] <;> simp

/-- Which select bit governs each bit of the word (R83). -/
theorem writeMask_getLsbD (sel : Word) (i : Nat) (h : i < 16) : (writeMask sel).getLsbD i =
    match i with
    | 0 => sel.getLsbD 0 | 1 => sel.getLsbD 0 | 2 => sel.getLsbD 1 | 3 => sel.getLsbD 2 | 4 => sel.getLsbD 3
    | 5 => sel.getLsbD 4 | 6 => sel.getLsbD 5 | 7 => sel.getLsbD 6 | 8 => sel.getLsbD 7 | 9 => sel.getLsbD 8
    | 10 => sel.getLsbD 8 | 11 => sel.getLsbD 9 | _ => sel.getLsbD 10 := by
  have ite : ∀ (b : Bool) (w : Word) (i : Nat),
      (if b = true then w else 0#16).getLsbD i = (b && w.getLsbD i) := by
    intro b w i
    cases b <;> simp
  rcases bit16_cases h with rfl | rfl | rfl | rfl | rfl | rfl | rfl | rfl | rfl | rfl | rfl | rfl | rfl | rfl |
    rfl | rfl <;>
  simp only [writeMask, fieldBits, selectedBits, BitVec.getLsbD_or] <;>
  simp [ite, -BitVec.getLsbD_eq_getElem, BitVec.getLsbD_ofNat, Nat.testBit]

/-- Each bit of the new word is the input's where its field is selected, and the old one elsewhere (R83). -/
theorem updateCfg_getLsbD {k : Nat} (cfg : Word) (sel : Word) (f : FieldInputs k) (i : Nat) (h : i < 16) :
    (updateCfg cfg sel f).getLsbD i =
      if (writeMask sel).getLsbD i then (packCfg f).getLsbD i else cfg.getLsbD i := by
  simp only [updateCfg, BitVec.getLsbD_or, BitVec.getLsbD_and, BitVec.getLsbD_not, h, decide_true,
    Bool.true_and]
  cases (writeMask sel).getLsbD i <;> simp

theorem packRes_toNat {k : Nat} (r e : BitVec k) :
    (packRes r e).toNat = r.toNat % 4096 + e.toNat % 16 * 4096 := by
  rw [packRes, BitVec.toNat_or, placeField_toNat (by decide), placeField_toNat (by decide), Nat.or_comm,
    Nat.mul_comm (e.toNat % 2 ^ 4), ← Nat.two_pow_add_eq_or_of_lt (by omega)]
  omega

theorem readingOf_eq (w : Word) : readingOf w = BitVec.ofNat 12 (w.toNat % 4096) := by
  apply BitVec.eq_of_toNat_eq
  simp [readingOf, BitVec.extractLsb'_toNat]

theorem exponentOf_eq (w : Word) : exponentOf w = BitVec.ofNat 4 (w.toNat / 4096) := by
  apply BitVec.eq_of_toNat_eq
  simp [exponentOf, BitVec.extractLsb'_toNat, Nat.shiftRight_eq_div_pow]

theorem mantOf_toNat (r : BitVec 12) (e : BitVec 4) : (mantOf r e).toNat = r.toNat * 2 ^ e.toNat := by
  have hr := r.isLt
  have he := e.isLt
  have h : r.toNat * 2 ^ e.toNat < 2 ^ 27 :=
    calc r.toNat * 2 ^ e.toNat ≤ 4095 * 2 ^ 15 :=
          Nat.mul_le_mul (by omega) (Nat.pow_le_pow_right (by decide) (by omega))
      _ < 2 ^ 27 := by decide
  rw [mantOf, BitVec.toNat_shiftLeft, BitVec.toNat_setWidth, Nat.shiftLeft_eq,
    Nat.mod_eq_of_lt (show r.toNat < 2 ^ 27 by omega), Nat.mod_eq_of_lt h]

end Sys2Proof.Machine
end

