-- ==== Sys2Proof/Laws/Decode.lean ====
section
/-! SUPPORT. What a reader that answers has read: the other direction of `Reader.Undoes`, and how many bytes each
operand form needs. -/
namespace Sys2Proof

/-- A reader that answers only where the bytes are a writer's own. -/
def Reader.OnlyReads {α : Type} (p : Reader α) (put : α → List Byte) : Prop :=
  ∀ bs x rest, p bs = some (x, rest) → bs = put x ++ rest

theorem readByte8_onlyReads : Reader.OnlyReads readByte8 fun b => [b] := by
  intro bs x rest h
  cases bs <;> simp_all [readByte8]

theorem readWord16_onlyReads : Reader.OnlyReads readWord16 putWord := by
  intro bs x rest h
  unfold readWord16 at h
  split at h
  · simp only [Option.some.injEq, Prod.mk.injEq] at h
    obtain ⟨rfl, rfl⟩ := h
    simp [putWord, word_hi_ofBytes, word_lo_ofBytes]
  · cases h

theorem readPair_onlyReads {α β : Type} {p : Reader α} {q : Reader β} {f : α → List Byte} {g : β → List Byte}
    (hp : p.OnlyReads f) (hq : q.OnlyReads g) : (readPair p q).OnlyReads fun x => f x.1 ++ g x.2 := by
  intro bs x rest h
  unfold readPair at h
  split at h
  · cases h
  next ha =>
  split at h
  · cases h
  next hb =>
  simp only [Option.some.injEq, Prod.mk.injEq] at h
  obtain ⟨rfl, rfl⟩ := h
  simp [hp _ _ _ ha, hq _ _ _ hb]

theorem readCfg_onlyReads : readCfg.OnlyReads putCfg := by
  have hw := readWord16_onlyReads
  have hp := fun {β : Type} {q : Reader β} {g : β → List Byte} (h : q.OnlyReads g) => readPair_onlyReads hw h
  intro bs x rest h
  unfold readCfg at h
  split at h
  · cases h
  next heq =>
  have := (hp (hp (hp (hp (hp (hp (hp (hp (hp (hp hw)))))))))) _ _ _ heq
  simp only [Option.some.injEq, Prod.mk.injEq] at h
  obtain ⟨rfl, rfl⟩ := h
  simpa [putCfg] using this

theorem readWR_onlyReads {bs rest : List Byte} {x : Byte × List Byte} (h : readWR bs = some (x, rest)) :
    x.2.length < 256 ∧ bs = x.1 :: BitVec.ofNat 8 x.2.length :: x.2 ++ rest := by
  unfold readWR at h
  split at h
  · cases h
  next reg len bs' ha =>
  have hb := readPair_onlyReads readByte8_onlyReads readByte8_onlyReads _ _ _ ha
  split at h
  · cases h
  next hd =>
  obtain ⟨h1, h2⟩ := readBytes_some hd
  simp only [Option.some.injEq, Prod.mk.injEq] at h
  obtain ⟨rfl, rfl⟩ := h
  have := len.isLt
  exact ⟨h1 ▸ this, by simp_all⟩

theorem withOperands_ok {α : Type} {p : Reader α} {mk : α → Instr} {bs rest : List Byte} {i : Instr}
    (h : withOperands p mk bs = .ok (i, rest)) : ∃ x, p bs = some (x, rest) ∧ i = mk x := by
  unfold withOperands at h
  split at h
  · cases h
  · next x r hp =>
    simp only [Except.ok.injEq, Prod.mk.injEq] at h
    obtain ⟨rfl, rfl⟩ := h
    exact ⟨x, hp, rfl⟩

theorem withOperands_error {α : Type} {p : Reader α} {mk : α → Instr} {bs : List Byte} {e : DecodeError} :
    withOperands p mk bs = .error e ↔ p bs = none ∧ e = .truncated := by
  unfold withOperands
  split <;> simp_all [eq_comm]

/-! ## How many bytes an operand form needs -/

/-- A reader that runs out exactly where fewer than `n` bytes are left, and else takes `n`. -/
def Reader.Needs {α : Type} (p : Reader α) (n : Nat) : Prop :=
  (∀ bs, p bs = none ↔ bs.length < n) ∧ ∀ bs x rest, p bs = some (x, rest) → bs.length = n + rest.length

theorem readByte8_needs : Reader.Needs readByte8 1 := by
  refine ⟨fun bs => by cases bs <;> simp [readByte8], fun bs x rest h => ?_⟩
  rw [readByte8_onlyReads _ _ _ h]
  exact Nat.add_comm _ _

theorem readWord16_needs : Reader.Needs readWord16 2 := by
  refine ⟨fun bs => ?_, fun bs x rest h => ?_⟩
  · match bs with
    | [] => simp [readWord16]
    | [_] => simp [readWord16]
    | _ :: _ :: _ => simp [readWord16]
  · rw [readWord16_onlyReads _ _ _ h, List.length_append]
    rfl

theorem readPair_needs {α β : Type} {p : Reader α} {q : Reader β} {m n : Nat} (hp : p.Needs m)
    (hq : q.Needs n) : (readPair p q).Needs (m + n) := by
  refine ⟨fun bs => ?_, fun bs x rest h => ?_⟩
  · unfold readPair
    split
    · next h => have := (hp.1 _).1 h; simp; omega
    next h =>
    have h1 := hp.2 _ _ _ h
    split
    · next h2 => have := (hq.1 _).1 h2; simp; omega
    · next h2 =>
      have := (hq.1 _).not.1 (by rw [h2]; simp)
      simp; omega
  · unfold readPair at h
    split at h
    · cases h
    next ha =>
    split at h
    · cases h
    next hb =>
    simp only [Option.some.injEq, Prod.mk.injEq] at h
    obtain ⟨rfl, rfl⟩ := h
    rw [hp.2 _ _ _ ha, hq.2 _ _ _ hb, Nat.add_assoc]

theorem readBytes_needs (n : Nat) : Reader.Needs (readBytes n) n := by
  refine ⟨fun bs => ?_, fun bs x rest h => ?_⟩
  · induction n generalizing bs with
    | zero => cases bs <;> simp [readBytes]
    | succ n ih =>
      cases bs with
      | nil => simp [readBytes]
      | cons b bs =>
        simp only [readBytes, List.length_cons, Nat.add_lt_add_iff_right, ← ih bs]
        split <;> simp_all
  · obtain ⟨h1, h2⟩ := readBytes_some h
    simp [h2, h1]

theorem readCfg_needs : readCfg.Needs 22 := by
  have hw := readWord16_needs
  have hp := fun {β : Type} {q : Reader β} {n : Nat} (h : q.Needs n) => readPair_needs hw h
  have key := hp (hp (hp (hp (hp (hp (hp (hp (hp (hp hw)))))))))
  refine ⟨fun bs => ?_, fun bs x rest h => ?_⟩
  · rw [show (22 : Nat) = 2 + (2 + (2 + (2 + (2 + (2 + (2 + (2 + (2 + (2 + 2))))))))) from rfl, ← key.1 bs]
    unfold readCfg
    split <;> simp_all
  · rw [readCfg_onlyReads _ _ _ h]
    simp [putCfg, putWord]
    omega

end Sys2Proof
end

