-- ==== Sys2Proof/Laws/State.lean ====
section
/-! SUPPORT. What each update of the state leaves in each field: one lemma per field per update. -/
namespace Sys2Proof.Machine

variable (s : State)

/-! ### setSess -/

@[simp] theorem State.setSess_params (v : SessState) : (s.setSess v).params = s.params := rfl
@[simp] theorem State.setSess_sess (v : SessState) : (s.setSess v).sess = v := rfl
@[simp] theorem State.setSess_devAddr (v : SessState) : (s.setSess v).devAddr = s.devAddr := rfl
@[simp] theorem State.setSess_softCfg (v : SessState) : (s.setSess v).softCfg = s.softCfg := rfl
@[simp] theorem State.setSess_busy (v : SessState) : (s.setSess v).busy = s.busy := rfl
@[simp] theorem State.setSess_fault (v : SessState) : (s.setSess v).fault = s.fault := rfl
@[simp] theorem State.setSess_refused (v : SessState) : (s.setSess v).refused = s.refused := rfl
@[simp] theorem State.setSess_port (v : SessState) : (s.setSess v).port = s.port := rfl
@[simp] theorem State.setSess_responses (v : SessState) : (s.setSess v).responses = s.responses := rfl
@[simp] theorem State.setSess_hist (v : SessState) : (s.setSess v).hist = s.hist := rfl
@[simp] theorem State.setSess_script (v : SessState) : (s.setSess v).script = s.script := rfl
@[simp] theorem State.setSess_calls (v : SessState) : (s.setSess v).calls = s.calls := rfl
@[simp] theorem State.setSess_draws (v : SessState) : (s.setSess v).draws = s.draws := rfl

/-! ### setDevAddr -/

@[simp] theorem State.setDevAddr_params (a : BusAddr) : (s.setDevAddr a).params = s.params := rfl
@[simp] theorem State.setDevAddr_sess (a : BusAddr) : (s.setDevAddr a).sess = s.sess := rfl
@[simp] theorem State.setDevAddr_devAddr (a : BusAddr) : (s.setDevAddr a).devAddr = some a := rfl
@[simp] theorem State.setDevAddr_softCfg (a : BusAddr) : (s.setDevAddr a).softCfg = s.softCfg := rfl
@[simp] theorem State.setDevAddr_busy (a : BusAddr) : (s.setDevAddr a).busy = s.busy := rfl
@[simp] theorem State.setDevAddr_fault (a : BusAddr) : (s.setDevAddr a).fault = s.fault := rfl
@[simp] theorem State.setDevAddr_refused (a : BusAddr) : (s.setDevAddr a).refused = s.refused := rfl
@[simp] theorem State.setDevAddr_port (a : BusAddr) : (s.setDevAddr a).port = s.port := rfl
@[simp] theorem State.setDevAddr_responses (a : BusAddr) : (s.setDevAddr a).responses = s.responses := rfl
@[simp] theorem State.setDevAddr_hist (a : BusAddr) : (s.setDevAddr a).hist = s.hist := rfl
@[simp] theorem State.setDevAddr_script (a : BusAddr) : (s.setDevAddr a).script = s.script := rfl
@[simp] theorem State.setDevAddr_calls (a : BusAddr) : (s.setDevAddr a).calls = s.calls := rfl
@[simp] theorem State.setDevAddr_draws (a : BusAddr) : (s.setDevAddr a).draws = s.draws := rfl

/-! ### setSoftCfg -/

@[simp] theorem State.setSoftCfg_params (w : Word) : (s.setSoftCfg w).params = s.params := rfl
@[simp] theorem State.setSoftCfg_sess (w : Word) : (s.setSoftCfg w).sess = s.sess := rfl
@[simp] theorem State.setSoftCfg_devAddr (w : Word) : (s.setSoftCfg w).devAddr = s.devAddr := rfl
@[simp] theorem State.setSoftCfg_softCfg (w : Word) : (s.setSoftCfg w).softCfg = w := rfl
@[simp] theorem State.setSoftCfg_busy (w : Word) : (s.setSoftCfg w).busy = s.busy := rfl
@[simp] theorem State.setSoftCfg_fault (w : Word) : (s.setSoftCfg w).fault = s.fault := rfl
@[simp] theorem State.setSoftCfg_refused (w : Word) : (s.setSoftCfg w).refused = s.refused := rfl
@[simp] theorem State.setSoftCfg_port (w : Word) : (s.setSoftCfg w).port = s.port := rfl
@[simp] theorem State.setSoftCfg_responses (w : Word) : (s.setSoftCfg w).responses = s.responses := rfl
@[simp] theorem State.setSoftCfg_hist (w : Word) : (s.setSoftCfg w).hist = s.hist := rfl
@[simp] theorem State.setSoftCfg_script (w : Word) : (s.setSoftCfg w).script = s.script := rfl
@[simp] theorem State.setSoftCfg_calls (w : Word) : (s.setSoftCfg w).calls = s.calls := rfl
@[simp] theorem State.setSoftCfg_draws (w : Word) : (s.setSoftCfg w).draws = s.draws := rfl

/-! ### logEvent -/

@[simp] theorem State.logEvent_params (e : Event) : (s.logEvent e).params = s.params := rfl
@[simp] theorem State.logEvent_sess (e : Event) : (s.logEvent e).sess = s.sess := rfl
@[simp] theorem State.logEvent_devAddr (e : Event) : (s.logEvent e).devAddr = s.devAddr := rfl
@[simp] theorem State.logEvent_softCfg (e : Event) : (s.logEvent e).softCfg = s.softCfg := rfl
@[simp] theorem State.logEvent_busy (e : Event) : (s.logEvent e).busy = s.busy := rfl
@[simp] theorem State.logEvent_fault (e : Event) : (s.logEvent e).fault = s.fault := rfl
@[simp] theorem State.logEvent_refused (e : Event) : (s.logEvent e).refused = s.refused := rfl
@[simp] theorem State.logEvent_port (e : Event) : (s.logEvent e).port = s.port := rfl
@[simp] theorem State.logEvent_responses (e : Event) : (s.logEvent e).responses = s.responses := rfl
@[simp] theorem State.logEvent_hist (e : Event) : (s.logEvent e).hist = s.hist ++ [e] := rfl
@[simp] theorem State.logEvent_script (e : Event) : (s.logEvent e).script = s.script := rfl
@[simp] theorem State.logEvent_calls (e : Event) : (s.logEvent e).calls = s.calls := rfl
@[simp] theorem State.logEvent_draws (e : Event) : (s.logEvent e).draws = s.draws := rfl

/-! ### takeAnswer -/

@[simp] theorem State.takeAnswer_params : s.takeAnswer.params = s.params := rfl
@[simp] theorem State.takeAnswer_sess : s.takeAnswer.sess = s.sess := rfl
@[simp] theorem State.takeAnswer_devAddr : s.takeAnswer.devAddr = s.devAddr := rfl
@[simp] theorem State.takeAnswer_softCfg : s.takeAnswer.softCfg = s.softCfg := rfl
@[simp] theorem State.takeAnswer_busy : s.takeAnswer.busy = s.busy := rfl
@[simp] theorem State.takeAnswer_fault : s.takeAnswer.fault = s.fault := rfl
@[simp] theorem State.takeAnswer_refused : s.takeAnswer.refused = s.refused := rfl
@[simp] theorem State.takeAnswer_port : s.takeAnswer.port = s.port := rfl
@[simp] theorem State.takeAnswer_responses : s.takeAnswer.responses = s.responses := rfl
@[simp] theorem State.takeAnswer_hist : s.takeAnswer.hist = s.hist := rfl
@[simp] theorem State.takeAnswer_script : s.takeAnswer.script = s.script.tail := rfl
@[simp] theorem State.takeAnswer_calls : s.takeAnswer.calls = s.calls + 1 := rfl
@[simp] theorem State.takeAnswer_draws : s.takeAnswer.draws = s.draws := rfl

/-! ### takeDraws -/

@[simp] theorem State.takeDraws_params (n : Nat) : (s.takeDraws n).params = s.params := rfl
@[simp] theorem State.takeDraws_sess (n : Nat) : (s.takeDraws n).sess = s.sess := rfl
@[simp] theorem State.takeDraws_devAddr (n : Nat) : (s.takeDraws n).devAddr = s.devAddr := rfl
@[simp] theorem State.takeDraws_softCfg (n : Nat) : (s.takeDraws n).softCfg = s.softCfg := rfl
@[simp] theorem State.takeDraws_busy (n : Nat) : (s.takeDraws n).busy = s.busy := rfl
@[simp] theorem State.takeDraws_fault (n : Nat) : (s.takeDraws n).fault = s.fault := rfl
@[simp] theorem State.takeDraws_refused (n : Nat) : (s.takeDraws n).refused = s.refused := rfl
@[simp] theorem State.takeDraws_port (n : Nat) : (s.takeDraws n).port = s.port := rfl
@[simp] theorem State.takeDraws_responses (n : Nat) : (s.takeDraws n).responses = s.responses := rfl
@[simp] theorem State.takeDraws_hist (n : Nat) : (s.takeDraws n).hist = s.hist := rfl
@[simp] theorem State.takeDraws_script (n : Nat) : (s.takeDraws n).script = s.script := rfl
@[simp] theorem State.takeDraws_calls (n : Nat) : (s.takeDraws n).calls = s.calls := rfl
@[simp] theorem State.takeDraws_draws (n : Nat) : (s.takeDraws n).draws = s.draws + n := rfl

/-! ### accept -/

@[simp] theorem State.accept_params (cs : List (List Byte)) : (s.accept cs).params = s.params := rfl
@[simp] theorem State.accept_sess (cs : List (List Byte)) : (s.accept cs).sess = s.sess := rfl
@[simp] theorem State.accept_devAddr (cs : List (List Byte)) : (s.accept cs).devAddr = s.devAddr := rfl
@[simp] theorem State.accept_softCfg (cs : List (List Byte)) : (s.accept cs).softCfg = s.softCfg := rfl
@[simp] theorem State.accept_busy (cs : List (List Byte)) : (s.accept cs).busy = true := rfl
@[simp] theorem State.accept_fault (cs : List (List Byte)) : (s.accept cs).fault = s.fault := rfl
@[simp] theorem State.accept_refused (cs : List (List Byte)) : (s.accept cs).refused = s.refused := rfl
@[simp] theorem State.accept_port (cs : List (List Byte)) : (s.accept cs).port = cs := rfl
@[simp] theorem State.accept_responses (cs : List (List Byte)) : (s.accept cs).responses = s.responses := rfl
@[simp] theorem State.accept_hist (cs : List (List Byte)) : (s.accept cs).hist = s.hist := rfl
@[simp] theorem State.accept_script (cs : List (List Byte)) : (s.accept cs).script = s.script := rfl
@[simp] theorem State.accept_calls (cs : List (List Byte)) : (s.accept cs).calls = s.calls := rfl
@[simp] theorem State.accept_draws (cs : List (List Byte)) : (s.accept cs).draws = s.draws := rfl

/-! ### returnWith -/

@[simp] theorem State.returnWith_params (r : Response) : (s.returnWith r).params = s.params := rfl
@[simp] theorem State.returnWith_sess (r : Response) : (s.returnWith r).sess = s.sess := rfl
@[simp] theorem State.returnWith_devAddr (r : Response) : (s.returnWith r).devAddr = s.devAddr := rfl
@[simp] theorem State.returnWith_softCfg (r : Response) : (s.returnWith r).softCfg = s.softCfg := rfl
@[simp] theorem State.returnWith_busy (r : Response) : (s.returnWith r).busy = false := rfl
@[simp] theorem State.returnWith_fault (r : Response) : (s.returnWith r).fault = s.fault := rfl
@[simp] theorem State.returnWith_refused (r : Response) : (s.returnWith r).refused = s.refused := rfl
@[simp] theorem State.returnWith_port (r : Response) : (s.returnWith r).port = s.port := rfl
@[simp] theorem State.returnWith_responses (r : Response) : (s.returnWith r).responses = s.responses ++ [r] := rfl
@[simp] theorem State.returnWith_hist (r : Response) : (s.returnWith r).hist = s.hist := rfl
@[simp] theorem State.returnWith_script (r : Response) : (s.returnWith r).script = s.script := rfl
@[simp] theorem State.returnWith_calls (r : Response) : (s.returnWith r).calls = s.calls := rfl
@[simp] theorem State.returnWith_draws (r : Response) : (s.returnWith r).draws = s.draws := rfl

/-! ### enterFault -/

@[simp] theorem State.enterFault_params (f : ModelFault) : (s.enterFault f).params = s.params := rfl
@[simp] theorem State.enterFault_sess (f : ModelFault) : (s.enterFault f).sess = s.sess := rfl
@[simp] theorem State.enterFault_devAddr (f : ModelFault) : (s.enterFault f).devAddr = s.devAddr := rfl
@[simp] theorem State.enterFault_softCfg (f : ModelFault) : (s.enterFault f).softCfg = s.softCfg := rfl
@[simp] theorem State.enterFault_busy (f : ModelFault) : (s.enterFault f).busy = false := rfl
@[simp] theorem State.enterFault_fault (f : ModelFault) : (s.enterFault f).fault = some f := rfl
@[simp] theorem State.enterFault_refused (f : ModelFault) : (s.enterFault f).refused = s.refused := rfl
@[simp] theorem State.enterFault_port (f : ModelFault) : (s.enterFault f).port = s.port := rfl
@[simp] theorem State.enterFault_responses (f : ModelFault) : (s.enterFault f).responses = s.responses := rfl
@[simp] theorem State.enterFault_hist (f : ModelFault) : (s.enterFault f).hist = s.hist := rfl
@[simp] theorem State.enterFault_script (f : ModelFault) : (s.enterFault f).script = s.script := rfl
@[simp] theorem State.enterFault_calls (f : ModelFault) : (s.enterFault f).calls = s.calls := rfl
@[simp] theorem State.enterFault_draws (f : ModelFault) : (s.enterFault f).draws = s.draws := rfl

/-! ### refuse -/

@[simp] theorem State.refuse_params : s.refuse.params = s.params := rfl
@[simp] theorem State.refuse_sess : s.refuse.sess = s.sess := rfl
@[simp] theorem State.refuse_devAddr : s.refuse.devAddr = s.devAddr := rfl
@[simp] theorem State.refuse_softCfg : s.refuse.softCfg = s.softCfg := rfl
@[simp] theorem State.refuse_busy : s.refuse.busy = s.busy := rfl
@[simp] theorem State.refuse_fault : s.refuse.fault = s.fault := rfl
@[simp] theorem State.refuse_refused : s.refuse.refused = true := rfl
@[simp] theorem State.refuse_port : s.refuse.port = s.port := rfl
@[simp] theorem State.refuse_responses : s.refuse.responses = s.responses := rfl
@[simp] theorem State.refuse_hist : s.refuse.hist = s.hist := rfl
@[simp] theorem State.refuse_script : s.refuse.script = s.script := rfl
@[simp] theorem State.refuse_calls : s.refuse.calls = s.calls := rfl
@[simp] theorem State.refuse_draws : s.refuse.draws = s.draws := rfl

/-! ### present -/

@[simp] theorem State.present_params (bs : List Byte) : (s.present bs).params = s.params := rfl
@[simp] theorem State.present_sess (bs : List Byte) : (s.present bs).sess = s.sess := rfl
@[simp] theorem State.present_devAddr (bs : List Byte) : (s.present bs).devAddr = s.devAddr := rfl
@[simp] theorem State.present_softCfg (bs : List Byte) : (s.present bs).softCfg = s.softCfg := rfl
@[simp] theorem State.present_busy (bs : List Byte) : (s.present bs).busy = s.busy := rfl
@[simp] theorem State.present_fault (bs : List Byte) : (s.present bs).fault = s.fault := rfl
@[simp] theorem State.present_refused (bs : List Byte) : (s.present bs).refused = s.refused := rfl
@[simp] theorem State.present_port (bs : List Byte) : (s.present bs).port = bs :: s.port := rfl
@[simp] theorem State.present_responses (bs : List Byte) : (s.present bs).responses = s.responses := rfl
@[simp] theorem State.present_hist (bs : List Byte) : (s.present bs).hist = s.hist := rfl
@[simp] theorem State.present_script (bs : List Byte) : (s.present bs).script = s.script := rfl
@[simp] theorem State.present_calls (bs : List Byte) : (s.present bs).calls = s.calls := rfl
@[simp] theorem State.present_draws (bs : List Byte) : (s.present bs).draws = s.draws := rfl

/-! ### address -/

@[simp] theorem State.address_params (raw : Byte) : (s.address raw).params = s.params := rfl
@[simp] theorem State.address_sess (raw : Byte) : (s.address raw).sess = .addressed := rfl
@[simp] theorem State.address_devAddr (raw : Byte) : (s.address raw).devAddr = some (normAddr s.params raw) := rfl
@[simp] theorem State.address_softCfg (raw : Byte) : (s.address raw).softCfg = s.softCfg := rfl
@[simp] theorem State.address_busy (raw : Byte) : (s.address raw).busy = s.busy := rfl
@[simp] theorem State.address_fault (raw : Byte) : (s.address raw).fault = s.fault := rfl
@[simp] theorem State.address_refused (raw : Byte) : (s.address raw).refused = s.refused := rfl
@[simp] theorem State.address_port (raw : Byte) : (s.address raw).port = s.port := rfl
@[simp] theorem State.address_responses (raw : Byte) : (s.address raw).responses = s.responses := rfl
@[simp] theorem State.address_hist (raw : Byte) : (s.address raw).hist = s.hist := rfl
@[simp] theorem State.address_script (raw : Byte) : (s.address raw).script = s.script := rfl
@[simp] theorem State.address_calls (raw : Byte) : (s.address raw).calls = s.calls := rfl
@[simp] theorem State.address_draws (raw : Byte) : (s.address raw).draws = s.draws := rfl

/-! ### afterCalls -/

@[simp] theorem State.afterCalls_params (evs : List Event) : (s.afterCalls evs).params = s.params := rfl
@[simp] theorem State.afterCalls_sess (evs : List Event) : (s.afterCalls evs).sess = s.sess := rfl
@[simp] theorem State.afterCalls_devAddr (evs : List Event) : (s.afterCalls evs).devAddr = s.devAddr := rfl
@[simp] theorem State.afterCalls_softCfg (evs : List Event) : (s.afterCalls evs).softCfg = s.softCfg := rfl
@[simp] theorem State.afterCalls_busy (evs : List Event) : (s.afterCalls evs).busy = s.busy := rfl
@[simp] theorem State.afterCalls_fault (evs : List Event) : (s.afterCalls evs).fault = s.fault := rfl
@[simp] theorem State.afterCalls_refused (evs : List Event) : (s.afterCalls evs).refused = s.refused := rfl
@[simp] theorem State.afterCalls_port (evs : List Event) : (s.afterCalls evs).port = s.port := rfl
@[simp] theorem State.afterCalls_responses (evs : List Event) : (s.afterCalls evs).responses = s.responses := rfl
@[simp] theorem State.afterCalls_hist (evs : List Event) : (s.afterCalls evs).hist = s.hist ++ evs := rfl
@[simp] theorem State.afterCalls_script (evs : List Event) : (s.afterCalls evs).script = s.script.drop evs.length := rfl
@[simp] theorem State.afterCalls_calls (evs : List Event) : (s.afterCalls evs).calls = s.calls + evs.length := rfl
@[simp] theorem State.afterCalls_draws (evs : List Event) : (s.afterCalls evs).draws = s.draws := rfl

/-! ### The session updates that look at `sess` first -/

@[simp] theorem State.advanceVerified_params : s.advanceVerified.params = s.params := by unfold State.advanceVerified; split <;> rfl
@[simp] theorem State.advanceVerified_devAddr : s.advanceVerified.devAddr = s.devAddr := by unfold State.advanceVerified; split <;> rfl
@[simp] theorem State.advanceVerified_softCfg : s.advanceVerified.softCfg = s.softCfg := by unfold State.advanceVerified; split <;> rfl
@[simp] theorem State.advanceVerified_busy : s.advanceVerified.busy = s.busy := by unfold State.advanceVerified; split <;> rfl
@[simp] theorem State.advanceVerified_fault : s.advanceVerified.fault = s.fault := by unfold State.advanceVerified; split <;> rfl
@[simp] theorem State.advanceVerified_refused : s.advanceVerified.refused = s.refused := by unfold State.advanceVerified; split <;> rfl
@[simp] theorem State.advanceVerified_port : s.advanceVerified.port = s.port := by unfold State.advanceVerified; split <;> rfl
@[simp] theorem State.advanceVerified_responses : s.advanceVerified.responses = s.responses := by unfold State.advanceVerified; split <;> rfl
@[simp] theorem State.advanceVerified_hist : s.advanceVerified.hist = s.hist := by unfold State.advanceVerified; split <;> rfl
@[simp] theorem State.advanceVerified_script : s.advanceVerified.script = s.script := by unfold State.advanceVerified; split <;> rfl
@[simp] theorem State.advanceVerified_calls : s.advanceVerified.calls = s.calls := by unfold State.advanceVerified; split <;> rfl
@[simp] theorem State.advanceVerified_draws : s.advanceVerified.draws = s.draws := by unfold State.advanceVerified; split <;> rfl

@[simp] theorem State.advanceConfigured_params : s.advanceConfigured.params = s.params := by unfold State.advanceConfigured; split <;> rfl
@[simp] theorem State.advanceConfigured_devAddr : s.advanceConfigured.devAddr = s.devAddr := by unfold State.advanceConfigured; split <;> rfl
@[simp] theorem State.advanceConfigured_softCfg : s.advanceConfigured.softCfg = s.softCfg := by unfold State.advanceConfigured; split <;> rfl
@[simp] theorem State.advanceConfigured_busy : s.advanceConfigured.busy = s.busy := by unfold State.advanceConfigured; split <;> rfl
@[simp] theorem State.advanceConfigured_fault : s.advanceConfigured.fault = s.fault := by unfold State.advanceConfigured; split <;> rfl
@[simp] theorem State.advanceConfigured_refused : s.advanceConfigured.refused = s.refused := by unfold State.advanceConfigured; split <;> rfl
@[simp] theorem State.advanceConfigured_port : s.advanceConfigured.port = s.port := by unfold State.advanceConfigured; split <;> rfl
@[simp] theorem State.advanceConfigured_responses : s.advanceConfigured.responses = s.responses := by unfold State.advanceConfigured; split <;> rfl
@[simp] theorem State.advanceConfigured_hist : s.advanceConfigured.hist = s.hist := by unfold State.advanceConfigured; split <;> rfl
@[simp] theorem State.advanceConfigured_script : s.advanceConfigured.script = s.script := by unfold State.advanceConfigured; split <;> rfl
@[simp] theorem State.advanceConfigured_calls : s.advanceConfigured.calls = s.calls := by unfold State.advanceConfigured; split <;> rfl
@[simp] theorem State.advanceConfigured_draws : s.advanceConfigured.draws = s.draws := by unfold State.advanceConfigured; split <;> rfl

@[simp] theorem State.dropConfigured_params : s.dropConfigured.params = s.params := by unfold State.dropConfigured; split <;> rfl
@[simp] theorem State.dropConfigured_devAddr : s.dropConfigured.devAddr = s.devAddr := by unfold State.dropConfigured; split <;> rfl
@[simp] theorem State.dropConfigured_softCfg : s.dropConfigured.softCfg = s.softCfg := by unfold State.dropConfigured; split <;> rfl
@[simp] theorem State.dropConfigured_busy : s.dropConfigured.busy = s.busy := by unfold State.dropConfigured; split <;> rfl
@[simp] theorem State.dropConfigured_fault : s.dropConfigured.fault = s.fault := by unfold State.dropConfigured; split <;> rfl
@[simp] theorem State.dropConfigured_refused : s.dropConfigured.refused = s.refused := by unfold State.dropConfigured; split <;> rfl
@[simp] theorem State.dropConfigured_port : s.dropConfigured.port = s.port := by unfold State.dropConfigured; split <;> rfl
@[simp] theorem State.dropConfigured_responses : s.dropConfigured.responses = s.responses := by unfold State.dropConfigured; split <;> rfl
@[simp] theorem State.dropConfigured_hist : s.dropConfigured.hist = s.hist := by unfold State.dropConfigured; split <;> rfl
@[simp] theorem State.dropConfigured_script : s.dropConfigured.script = s.script := by unfold State.dropConfigured; split <;> rfl
@[simp] theorem State.dropConfigured_calls : s.dropConfigured.calls = s.calls := by unfold State.dropConfigured; split <;> rfl
@[simp] theorem State.dropConfigured_draws : s.dropConfigured.draws = s.draws := by unfold State.dropConfigured; split <;> rfl

@[simp] theorem State.advanceVerified_sess :
    s.advanceVerified.sess = if s.sess = .addressed then .verified else s.sess := by
  unfold State.advanceVerified; split <;> rfl

@[simp] theorem State.advanceConfigured_sess :
    s.advanceConfigured.sess = if s.sess = .verified ∨ s.sess = .configured then .configured else s.sess := by
  unfold State.advanceConfigured; split <;> rfl

@[simp] theorem State.dropConfigured_sess :
    s.dropConfigured.sess = if s.sess = .configured then .verified else s.sess := by
  unfold State.dropConfigured; split <;> rfl

end Sys2Proof.Machine
end

