-- ==== Sys2Proof/Laws/Ops.lean ====
section
/-! SUPPORT. What each shared operation can do: the closed form of a sequence of transport calls that goes
through, and for every sequence the ways it can end. -/
namespace Sys2Proof.Machine

/-! ## Answers -/

@[simp] theorem answer_takeAnswer (s : State) (k : Nat) : s.takeAnswer.answer k = s.answer (k + 1) := by
  have hk : s.calls + 1 + k = s.calls + (k + 1) := by omega
  cases h : s.script <;> simp [State.answer, State.takeAnswer, h, hk]

@[simp] theorem answer_logEvent (s : State) (e : Event) (k : Nat) : (s.logEvent e).answer k = s.answer k := rfl

@[simp] theorem answer_setSess (s : State) (v : SessState) (k : Nat) : (s.setSess v).answer k = s.answer k := rfl

@[simp] theorem answer_takeDraws (s : State) (n k : Nat) : (s.takeDraws n).answer k = s.answer k := rfl

@[simp] theorem answer_address (s : State) (raw : Byte) (k : Nat) : (s.address raw).answer k = s.answer k := rfl

@[simp] theorem answer_accept (s : State) (cs : List (List Byte)) (k : Nat) :
    (s.accept cs).answer k = s.answer k := rfl

@[simp] theorem answer_afterCalls (s : State) (evs : List Event) (k : Nat) :
    (s.afterCalls evs).answer k = s.answer (evs.length + k) := by
  simp [State.answer, State.afterCalls, List.getElem?_drop, Nat.add_assoc, List.getD_eq_getElem?_getD]

@[simp] theorem returns_afterCalls (s : State) (evs : List Event) (k : Nat) :
    (s.afterCalls evs).Returns k ↔ s.Returns (evs.length + k) := by
  simp [State.Returns]

/-! ## States after calls -/

theorem afterCalls_append (s : State) (e₁ e₂ : List Event) :
    (s.afterCalls e₁).afterCalls e₂ = s.afterCalls (e₁ ++ e₂) := by
  simp [State.afterCalls, List.drop_drop, Nat.add_assoc]

theorem afterCalls_takeDraws (s : State) (evs : List Event) (n : Nat) :
    (s.takeDraws n).afterCalls evs = (s.afterCalls evs).takeDraws n := rfl

theorem takeAnswer_logEvent (s : State) (e : Event) : s.takeAnswer.logEvent e = s.afterCalls [e] := by
  simp [State.takeAnswer, State.logEvent, State.afterCalls, List.drop_one]

/-! ## One call -/

theorem call_eq (p : Primitive) (ev : Answer → Event) (s : State) :
    call p ev s = if (s.answer 0).exc then .commError (s.afterCalls [.exc p])
      else .done (s.answer 0) (s.afterCalls [ev (s.answer 0)]) := by
  simp only [call, takeAnswer_logEvent]

theorem call_returns {p : Primitive} {ev : Answer → Event} {s : State} (h : s.Returns 0) :
    call p ev s = .done (s.answer 0) (s.afterCalls [ev (s.answer 0)]) := by
  rw [call_eq, if_neg (by simp [State.Returns] at h; simp [h])]

theorem call_raises {p : Primitive} {ev : Answer → Event} {s : State} (h : (s.answer 0).exc = true) :
    call p ev s = .commError (s.afterCalls [.exc p]) := by
  rw [call_eq, if_pos h]

/-! ## Sequences that go through -/

/-- Every end of a write transaction (R63, R74): which call raised, or the close status. -/
theorem transaction_eq (a : BusAddr) (bs : List Byte) (s : State) :
    transaction a bs s =
      if (s.answer 0).exc then .commError (s.afterCalls [.exc .beginTxn])
      else if (s.answer 1).exc then .commError (s.afterCalls [.beginTxn a, .exc .write])
      else if (s.answer 2).exc then .commError (s.afterCalls [.beginTxn a, .write bs, .exc .endTxn])
      else if (s.answer 2).status = 0 then .done () (s.afterCalls (s.writeEvents 0 a bs))
      else .commError (s.afterCalls (s.writeEvents 0 a bs)) := by
  unfold transaction tBegin tWrite tEnd
  cases h0 : (s.answer 0).exc <;> cases h1 : (s.answer 1).exc <;> cases h2 : (s.answer 2).exc <;>
    simp [call_eq, BusResult.andThen, afterCalls_append, State.writeEvents, h0, h1, h2]

theorem transaction_closes {a : BusAddr} {bs : List Byte} {s : State} (h : s.Closes 0) :
    transaction a bs s = .done () (s.afterCalls (s.writeEvents 0 a bs)) := by
  obtain ⟨h0, h1, h2, h3⟩ := h
  simp only [State.Returns, Nat.zero_add] at h0 h1 h2 h3
  simp [transaction_eq, h0, h1, h2, h3]

theorem memWrite_closes {a : BusAddr} {reg : Byte} {bs : List Byte} {s : State}
    (ha : s.devAddr = some a) (h : s.Closes 0) :
    memWrite reg bs s = .done () (s.afterCalls (s.writeEvents 0 a (ptrByte s.params reg :: bs))) := by
  simp [memWrite, ha, transaction_closes h]

theorem memWrite_none {reg : Byte} {bs : List Byte} {s : State} (h : s.devAddr = none) :
    memWrite reg bs s = .faulted .usedBeforeAddressed s := by
  simp [memWrite, h]

theorem memRead_none {reg n : Byte} {s : State} (h : s.devAddr = none) :
    memRead reg n s = .faulted .usedBeforeAddressed s := by
  simp [memRead, h]

theorem delivers_succ {s : State} {k n : Nat} (h : s.Delivers k (n + 1)) :
    s.Returns k ∧ (s.answer k).avail ≠ 0 ∧ s.Returns (k + 1) ∧ s.Delivers (k + 2) n := by
  obtain ⟨h0, h1, h2⟩ := h 0 (Nat.succ_pos n)
  refine ⟨h0, h1, h2, fun i hi => ?_⟩
  have := h (i + 1) (by omega)
  rwa [show k + 2 * (i + 1) = k + 2 + 2 * i by omega] at this

theorem bytesFrom_succ (s : State) (k n : Nat) :
    s.bytesFrom k (n + 1) = (s.answer (k + 1)).byte :: s.bytesFrom (k + 2) n := by
  simp only [State.bytesFrom, List.range_succ_eq_map, List.map_cons, List.map_map]
  congr 1
  apply List.map_congr_left
  intro i _
  simp only [Function.comp_apply, show k + 2 * (i + 1) + 1 = k + 2 + 2 * i + 1 by omega]

theorem pairEvents_succ (s : State) (k n : Nat) :
    s.pairEvents k (n + 1) =
      .avail (s.answer k).avail :: .readByte (s.answer (k + 1)).byte :: s.pairEvents (k + 2) n := by
  simp only [State.pairEvents, List.range_succ_eq_map, List.flatMap_cons, List.flatMap_map,
    Nat.mul_zero, Nat.add_zero, List.cons_append, List.nil_append]
  congr 3
  funext i
  simp only [show k + 2 * (i + 1) = k + 2 + 2 * i by omega]

@[simp] theorem bytesFrom_length (s : State) (k n : Nat) : (s.bytesFrom k n).length = n := by
  simp [State.bytesFrom]

@[simp] theorem pairEvents_length (s : State) (k n : Nat) : (s.pairEvents k n).length = 2 * n := by
  induction n generalizing k with
  | zero => rfl
  | succ n ih => rw [pairEvents_succ]; simp [ih]; omega

theorem delivers_afterCalls {s : State} {evs : List Event} {k n : Nat} (h : s.Delivers (evs.length + k) n) :
    (s.afterCalls evs).Delivers k n := by
  intro i hi
  obtain ⟨h0, h1, h2⟩ := h i hi
  simp only [returns_afterCalls, answer_afterCalls]
  simp only [Nat.add_assoc] at h0 h1 h2 ⊢
  exact ⟨h0, h1, h2⟩

theorem bytesFrom_afterCalls (s : State) (evs : List Event) (k n : Nat) :
    (s.afterCalls evs).bytesFrom k n = s.bytesFrom (evs.length + k) n := by
  simp [State.bytesFrom, Nat.add_assoc]

theorem pairEvents_afterCalls (s : State) (evs : List Event) (k n : Nat) :
    (s.afterCalls evs).pairEvents k n = s.pairEvents (evs.length + k) n := by
  simp [State.pairEvents, Nat.add_assoc]

/-- The loop of MemRead that receives every byte (R75): `n` Avail and `n` ReadByte calls. -/
theorem readLoop_delivers {n : Nat} {s : State} (h : s.Delivers 0 n) :
    readLoop n s = .done (s.bytesFrom 0 n) (s.afterCalls (s.pairEvents 0 n)) := by
  induction n generalizing s with
  | zero => simp [readLoop, State.bytesFrom, State.pairEvents, State.afterCalls]
  | succ n ih =>
    obtain ⟨h0, h1, h2, h3⟩ := delivers_succ h
    have h2' : (s.afterCalls [.avail (s.answer 0).avail]).Returns 0 := by simpa using h2
    have hd : ((s.afterCalls [.avail (s.answer 0).avail]).afterCalls
        [.readByte (s.answer 1).byte]).Delivers 0 n := by
      rw [afterCalls_append]; exact delivers_afterCalls h3
    have h2e : ((s.afterCalls [.avail (s.answer 0).avail]).answer 0) = s.answer 1 := by simp
    simp only [readLoop, tAvail, tReadByte, call_returns h0, BusResult.andThen, if_neg h1,
      call_returns h2', h2e, ih hd]
    rw [bytesFrom_succ, pairEvents_succ, afterCalls_append, bytesFrom_afterCalls, pairEvents_afterCalls,
      afterCalls_append]
    rfl

/-- MemRead that receives every byte (R75). -/
theorem memRead_reads {a : BusAddr} {reg n : Byte} {s : State} (ha : s.devAddr = some a)
    (h : s.Reads 0 n.toNat) :
    memRead reg n s = .done (s.bytesFrom 4 n.toNat) (s.afterRead a reg n) := by
  obtain ⟨hc, hr, hd⟩ := h
  have hr' : (s.afterCalls (s.writeEvents 0 a [ptrByte s.params reg])).Returns 0 := by
    simpa [State.writeEvents] using hr
  have hd' : (((s.afterCalls (s.writeEvents 0 a [ptrByte s.params reg])).afterCalls [.request a n]).takeDraws
      n.toNat).Delivers 0 n.toNat := by
    rw [afterCalls_append]; exact delivers_afterCalls hd
  simp only [memRead, ha, transaction_closes hc, BusResult.andThen, tRequest, call_returns hr',
    readLoop_delivers hd']
  have hb : (((s.afterCalls (s.writeEvents 0 a [ptrByte s.params reg])).afterCalls [.request a n]).takeDraws
      n.toNat).bytesFrom 0 n.toNat = s.bytesFrom 4 n.toNat := by
    rw [afterCalls_append]; exact bytesFrom_afterCalls s _ 0 n.toNat
  have hp : (((s.afterCalls (s.writeEvents 0 a [ptrByte s.params reg])).afterCalls [.request a n]).takeDraws
      n.toNat).pairEvents 0 n.toNat = s.pairEvents 4 n.toNat := by
    rw [afterCalls_append]; exact pairEvents_afterCalls s _ 0 n.toNat
  rw [hb, hp, if_neg (by simp)]
  simp only [fillBuffer, bytesFrom_length, BusResult.done.injEq]
  refine ⟨by simp [State.drawn], ?_⟩
  simp only [State.afterRead, State.readEvents, afterCalls_takeDraws, afterCalls_append,
    List.append_assoc, List.cons_append, List.nil_append, Nat.zero_add]

theorem readReg16_reads {a : BusAddr} {r : DeviceReg} {s : State} (ha : s.devAddr = some a)
    (h : s.Reads 0 2) :
    readReg16 r s = .done (s.wordFrom 0) (s.afterRead a r.pointer 2) := by
  have h' : s.Reads 0 (2 : Byte).toNat := h
  simp only [readReg16, memRead_reads ha h', BusResult.andThen]
  rfl

theorem readReg16_none {r : DeviceReg} {s : State} (h : s.devAddr = none) :
    readReg16 r s = .faulted .usedBeforeAddressed s := by
  simp [readReg16, memRead_none h, BusResult.andThen]

theorem writeReg16_closes {a : BusAddr} {r : DeviceReg} {w : Word} {s : State} (ha : s.devAddr = some a)
    (h : s.Closes 0) :
    writeReg16 r w s = .done () (s.afterCalls (s.writeEvents 0 a
      [ptrByte s.params r.pointer, (wireBytes s.params w).1, (wireBytes s.params w).2])) :=
  memWrite_closes ha h

theorem writeReg16_none {r : DeviceReg} {w : Word} {s : State} (h : s.devAddr = none) :
    writeReg16 r w s = .faulted .usedBeforeAddressed s :=
  memWrite_none h

/-! ## Sequences that stop early -/

theorem writeEvents_closes {s : State} {k : Nat} (h : s.Closes k) (a : BusAddr) (bs : List Byte) :
    s.writeEvents k a bs = [.beginTxn a, .write bs, .endTxn 0] := by
  simp [State.writeEvents, h.2.2.2]

/-- A write transaction that the close status fails (R74). -/
theorem transaction_fails {s : State} {a : BusAddr} {bs : List Byte} (h0 : s.Returns 0) (h1 : s.Returns 1)
    (h2 : s.Returns 2) (h3 : (s.answer 2).status ≠ 0) :
    transaction a bs s =
      .commError (s.afterCalls [.beginTxn a, .write bs, .endTxn (s.answer 2).status]) := by
  simp only [State.Returns] at h0 h1 h2
  replace h3 : ¬ (s.answer 2).status = 0#8 := h3
  simp [transaction_eq, h0, h1, h2, h3, State.writeEvents]

/-- What the loop has done after one pair of calls that deliver a byte. -/
theorem readLoop_pair {n : Nat} {s : State} (h0 : s.Returns 0) (h1 : (s.answer 0).avail ≠ 0)
    (h2 : s.Returns 1) :
    readLoop (n + 1) s =
      (readLoop n (s.afterCalls [.avail (s.answer 0).avail, .readByte (s.answer 1).byte])).andThen
        fun bs t => .done ((s.answer 1).byte :: bs) t := by
  have h2' : (s.afterCalls [.avail (s.answer 0).avail]).Returns 0 := by simpa using h2
  have h2e : ((s.afterCalls [.avail (s.answer 0).avail]).answer 0) = s.answer 1 := by simp
  simp only [readLoop, tAvail, tReadByte, call_returns h0, BusResult.andThen, if_neg h1, call_returns h2',
    h2e, afterCalls_append]
  rfl

/-- The loop that stops after `i` of `n` bytes, at a count of zero (R75, D14). -/
theorem readLoop_short {n i : Nat} {s : State} (hi : i < n) (hd : s.Delivers 0 i) (hr : s.Returns (2 * i))
    (h0 : (s.answer (2 * i)).avail = 0) :
    readLoop n s = .done (s.bytesFrom 0 i) (s.afterCalls (s.pairEvents 0 i ++ [.avail 0])) := by
  induction i generalizing n s with
  | zero =>
    obtain ⟨n, rfl⟩ : ∃ k, n = k + 1 := ⟨n - 1, by omega⟩
    simp only [readLoop, tAvail, call_returns hr, BusResult.andThen, if_pos h0]
    simp only [Nat.mul_zero] at h0
    simp [State.bytesFrom, State.pairEvents, h0]
  | succ i ih =>
    obtain ⟨n, rfl⟩ : ∃ k, n = k + 1 := ⟨n - 1, by omega⟩
    obtain ⟨d0, d1, d2, d3⟩ := delivers_succ hd
    have e : 2 + 2 * i = 2 * (i + 1) := by omega
    rw [readLoop_pair d0 d1 d2, ih (by omega) (delivers_afterCalls d3) (by simpa [e] using hr)
      (by simpa [e] using h0), bytesFrom_succ, pairEvents_succ, bytesFrom_afterCalls, pairEvents_afterCalls]
    simp only [BusResult.andThen, afterCalls_append]
    rfl

/-- The loop in which the call after `i` delivered bytes raises: the Avail, or the ReadByte (R75, D11). -/
theorem readLoop_raises {n i : Nat} {s : State} (hi : i < n) (hd : s.Delivers 0 i) :
    (¬ s.Returns (2 * i) →
      readLoop n s = .commError (s.afterCalls (s.pairEvents 0 i ++ [.exc .avail]))) ∧
    (s.Returns (2 * i) → (s.answer (2 * i)).avail ≠ 0 → ¬ s.Returns (2 * i + 1) →
      readLoop n s = .commError (s.afterCalls (s.pairEvents 0 i ++
        [.avail (s.answer (2 * i)).avail, .exc .readByte]))) := by
  induction i generalizing n s with
  | zero =>
    obtain ⟨n, rfl⟩ : ∃ k, n = k + 1 := ⟨n - 1, by omega⟩
    refine ⟨fun h => ?_, fun h h1 h2 => ?_⟩
    · have h' : (s.answer 0).exc = true := by simpa [State.Returns] using h
      simp only [readLoop, tAvail, call_raises h', BusResult.andThen]
      rfl
    · have h2' : (s.answer 1).exc = true := by simpa [State.Returns] using h2
      simp only [Nat.mul_zero] at h h1
      simp [readLoop, tAvail, tReadByte, call_returns h, BusResult.andThen, h1, call_eq, h2',
        afterCalls_append, State.pairEvents]
  | succ i ih =>
    obtain ⟨n, rfl⟩ : ∃ k, n = k + 1 := ⟨n - 1, by omega⟩
    obtain ⟨d0, d1, d2, d3⟩ := delivers_succ hd
    have := ih (n := n) (by omega) (delivers_afterCalls (evs := [.avail (s.answer 0).avail,
      .readByte (s.answer 1).byte]) d3)
    simp only [answer_afterCalls, returns_afterCalls, List.length_cons, List.length_nil, Nat.zero_add,
      Nat.reduceAdd, pairEvents_afterCalls, afterCalls_append, ← Nat.add_assoc] at this
    rw [show 2 * (i + 1) = 2 + 2 * i by omega, readLoop_pair d0 d1 d2]
    refine ⟨fun h => ?_, fun h h1 h2 => ?_⟩
    · rw [this.1 h, pairEvents_succ]; rfl
    · rw [this.2 h h1 h2, pairEvents_succ]; rfl

/-- MemRead that receives `i` of `len` bytes (R75, D8): under `tolerate` the rest of the buffer is drawn. -/
theorem memRead_short {s : State} {a : BusAddr} {reg len : Byte} {i : Nat} (ha : s.devAddr = some a)
    (hi : i < len.toNat) (hc : s.Closes 0) (hr : s.Returns 3) (hd : s.Delivers 4 i)
    (hr2 : s.Returns (4 + 2 * i)) (h0 : (s.answer (4 + 2 * i)).avail = 0) :
    memRead reg len s =
      let t := (s.afterCalls ([.beginTxn a, .write [ptrByte s.params reg], .endTxn 0, .request a len] ++
        s.pairEvents 4 i ++ [.avail 0])).takeDraws len.toNat
      match s.params.shortReadPolicy with
      | .tolerate => .done (s.bytesFrom 4 i ++
          (List.range (len.toNat - i)).map fun j => Config.freeByte (s.draws + i + j)) t
      | .commError => .commError t := by
  have hr' : (s.afterCalls (s.writeEvents 0 a [ptrByte s.params reg])).Returns 0 := by
    simpa [State.writeEvents] using hr
  have e : (s.afterCalls (s.writeEvents 0 a [ptrByte s.params reg])).afterCalls [.request a len] =
      s.afterCalls [.beginTxn a, .write [ptrByte s.params reg], .endTxn 0, .request a len] := by
    rw [afterCalls_append, writeEvents_closes hc]; rfl
  have hd' : ((s.afterCalls [.beginTxn a, .write [ptrByte s.params reg], .endTxn 0, .request a len]).takeDraws
      len.toNat).Delivers 0 i := delivers_afterCalls hd
  simp only [memRead, ha, transaction_closes hc, BusResult.andThen, tRequest, call_returns hr', e]
  rw [readLoop_short hi hd' (by simpa [State.Returns] using hr2) (by simpa using h0)]
  have hb : ((s.afterCalls [.beginTxn a, .write [ptrByte s.params reg], .endTxn 0, .request a len]).takeDraws
      len.toNat).bytesFrom 0 i = s.bytesFrom 4 i := bytesFrom_afterCalls s _ 0 i
  have hp : ((s.afterCalls [.beginTxn a, .write [ptrByte s.params reg], .endTxn 0, .request a len]).takeDraws
      len.toNat).pairEvents 0 i = s.pairEvents 4 i := pairEvents_afterCalls s _ 0 i
  rw [hb, hp]
  simp only [bytesFrom_length]
  have dr : ((s.afterCalls [.beginTxn a, .write [ptrByte s.params reg], .endTxn 0, .request a len]).drawn
      len.toNat).drop i =
      (List.range (len.toNat - i)).map fun j => Config.freeByte (s.draws + i + j) := by
    apply List.ext_getElem
    · simp [State.drawn]
    · intro n h1 h2
      simp [State.drawn, Nat.add_assoc]
  cases hq : s.params.shortReadPolicy
  · simp [hq, fillBuffer, afterCalls_takeDraws, afterCalls_append]
    exact dr
  · simp [hq, hi, afterCalls_takeDraws, afterCalls_append]

/-- A 16-bit register read that receives `i < 2` bytes (R75, R80). -/
theorem readReg16_short {s : State} {a : BusAddr} {r : DeviceReg} {i : Nat} (ha : s.devAddr = some a) (hi : i < 2)
    (hc : s.Closes 0) (hr : s.Returns 3) (hd : s.Delivers 4 i) (hr2 : s.Returns (4 + 2 * i))
    (h0 : (s.answer (4 + 2 * i)).avail = 0) :
    readReg16 r s =
      let t := (s.afterCalls ([.beginTxn a, .write [ptrByte s.params r.pointer], .endTxn 0, .request a 2] ++
        s.pairEvents 4 i ++ [.avail 0])).takeDraws 2
      match s.params.shortReadPolicy with
      | .tolerate => .done (wireWord s.params (if i = 0 then Config.freeByte s.draws else (s.answer 5).byte)
          (Config.freeByte (s.draws + 1))) t
      | .commError => .commError t := by
  simp only [readReg16, memRead_short (len := 2) ha hi hc hr hd hr2 h0]
  obtain rfl | rfl : i = 0 ∨ i = 1 := by omega
  all_goals cases s.params.shortReadPolicy <;> rfl

/-- A write transaction that breaks raises CommError with its events (R74). -/
theorem transaction_breaks {s : State} {a : BusAddr} {bs : List Byte} {evs : List Event}
    (h : s.WriteBreaks 0 a bs evs) : transaction a bs s = .commError (s.afterCalls evs) := by
  simp only [State.WriteBreaks, State.Returns, Bool.not_eq_false, Nat.zero_add] at h
  rcases h with ⟨h0, rfl⟩ | ⟨h0, h1, rfl⟩ | ⟨h0, h1, h2, rfl⟩ | ⟨h0, h1, h2, h3, rfl⟩
  · simp [transaction_eq, h0]
  · simp [transaction_eq, h0, h1]
  · simp [transaction_eq, h0, h1, h2]
  · rw [transaction_fails h0 h1 h2 h3]
    rfl

theorem memWrite_breaks {s : State} {a : BusAddr} {reg : Byte} {bs : List Byte} {evs : List Event}
    (ha : s.devAddr = some a) (h : s.WriteBreaks 0 a (ptrByte s.params reg :: bs) evs) :
    memWrite reg bs s = .commError (s.afterCalls evs) := by
  simp [memWrite, ha, transaction_breaks h]

/-- MemRead whose address phase breaks makes no Request (R75). -/
theorem memRead_writeBreaks {s : State} {a : BusAddr} {reg n : Byte} {evs : List Event}
    (ha : s.devAddr = some a) (h : s.WriteBreaks 0 a [ptrByte s.params reg] evs) :
    memRead reg n s = .commError (s.afterCalls evs) := by
  simp [memRead, ha, transaction_breaks h, BusResult.andThen]

/-- MemRead whose loop breaks has drawn its buffer (R75). -/
theorem memRead_loopBreaks {s : State} {a : BusAddr} {reg n : Byte} {loop : List Event}
    (ha : s.devAddr = some a) (hc : s.Closes 0) (hr : s.Returns 3) (h : s.LoopBreaks 4 n.toNat loop) :
    memRead reg n s =
      .commError ((s.afterCalls (s.writeEvents 0 a [ptrByte s.params reg] ++ .request a n :: loop)).takeDraws
        n.toNat) := by
  obtain ⟨i, hi, hd, h⟩ := h
  have hr' : (s.afterCalls (s.writeEvents 0 a [ptrByte s.params reg])).Returns 0 := by
    simpa [State.writeEvents] using hr
  have hd' : (((s.afterCalls (s.writeEvents 0 a [ptrByte s.params reg])).afterCalls [.request a n]).takeDraws
      n.toNat).Delivers 0 i := by
    rw [afterCalls_append]; exact delivers_afterCalls hd
  have hp : (((s.afterCalls (s.writeEvents 0 a [ptrByte s.params reg])).afterCalls [.request a n]).takeDraws
      n.toNat).pairEvents 0 i = s.pairEvents 4 i := by
    rw [afterCalls_append]; exact pairEvents_afterCalls s _ 0 i
  have e : ∀ k, (((s.afterCalls (s.writeEvents 0 a [ptrByte s.params reg])).afterCalls [.request a n]).takeDraws
      n.toNat).answer k = s.answer (4 + k) := fun k => by
    rw [afterCalls_append, answer_takeDraws, answer_afterCalls]; rfl
  have L := readLoop_raises hi hd'
  simp only [State.Returns, e, hp] at L
  simp only [State.Returns] at h
  rcases h with ⟨h1, rfl⟩ | ⟨h1, h2, h3, rfl⟩ | ⟨h1, h2, h3, rfl⟩
  · simp only [memRead, ha, transaction_closes hc, BusResult.andThen, tRequest, call_returns hr']
    rw [L.1 h1]
    simp [afterCalls_takeDraws, afterCalls_append]
  · simp only [memRead, ha, transaction_closes hc, BusResult.andThen, tRequest, call_returns hr']
    rw [L.2 h1 h2 (by simpa [Nat.add_assoc] using h3)]
    simp [afterCalls_takeDraws, afterCalls_append]
  · rw [memRead_short ha hi hc hr hd h1 h2, h3, writeEvents_closes hc]
    simp

/-- Every way MemRead raises CommError (R75). -/
theorem memRead_breaks {s : State} {a : BusAddr} {reg n : Byte} {evs : List Event} {d : Nat}
    (ha : s.devAddr = some a) (h : s.ReadBreaks 0 a reg n evs d) :
    memRead reg n s = .commError ((s.afterCalls evs).takeDraws d) := by
  rcases h with ⟨h, rfl⟩ | ⟨hc, h, rfl, rfl⟩ | ⟨hc, hr, rfl, loop, h, rfl⟩
  · exact memRead_writeBreaks ha h
  · have hr' : ((s.afterCalls (s.writeEvents 0 a [ptrByte s.params reg])).answer 0).exc = true := by
      simpa [State.writeEvents, State.Returns] using h
    simp only [memRead, ha, transaction_closes hc, BusResult.andThen, tRequest, call_raises hr',
      afterCalls_append]
    rfl
  · exact memRead_loopBreaks ha hc hr h

/-! ## Every way a sequence can end -/

/-- Every end of `r` satisfies the predicate of its kind. -/
def BusResult.Ends {α : Type} (r : BusResult α) (good : α → State → Prop) (bad : State → Prop)
    (fault : State → Prop) : Prop :=
  match r with
  | .done v s => good v s
  | .commError s => bad s
  | .faulted _ s => fault s

theorem ends_andThen {α β : Type} {r : BusResult α} {k : α → State → BusResult β}
    {good : α → State → Prop} {good' : β → State → Prop} {bad fault : State → Prop}
    (hr : r.Ends good bad fault) (hk : ∀ v s, good v s → (k v s).Ends good' bad fault) :
    (r.andThen k).Ends good' bad fault := by
  cases r with
  | done v s => exact hk v s hr
  | commError s => exact hr
  | faulted f s => exact hr

theorem ends_mono {α : Type} {r : BusResult α} {good good' : α → State → Prop}
    {bad bad' fault fault' : State → Prop} (h : r.Ends good bad fault)
    (hg : ∀ v s, good v s → good' v s) (hb : ∀ s, bad s → bad' s) (hf : ∀ s, fault s → fault' s) :
    r.Ends good' bad' fault' := by
  cases r with
  | done v s => exact hg v s h
  | commError s => exact hb s h
  | faulted f s => exact hf s h

/-- Events none of which ends a command (R93). -/
def Clean (p : ShortReadPolicy) (evs : List Event) : Prop := ∀ e ∈ evs, e.raises p = false

/-- Events of which the last, and only the last, ends a command (R94). -/
def Broken (p : ShortReadPolicy) (evs : List Event) : Prop :=
  ∃ es e, evs = es ++ [e] ∧ Clean p es ∧ e.raises p = true

theorem clean_append {p : ShortReadPolicy} {e₁ e₂ : List Event} (h : Clean p e₁) (h' : Clean p e₂) :
    Clean p (e₁ ++ e₂) := fun e he => (List.mem_append.1 he).elim (h e) (h' e)

theorem broken_append {p : ShortReadPolicy} {e₁ e₂ : List Event} (h : Clean p e₁) (h' : Broken p e₂) :
    Broken p (e₁ ++ e₂) := by
  obtain ⟨es, e, rfl, hc, hr⟩ := h'
  exact ⟨e₁ ++ es, e, by simp, clean_append h hc, hr⟩

/-- What a sequence of transport calls does: `t` is `s` after events that have the property `P`, that name no
address but `a`, that try `b` times to begin a transaction and at most `r` times to request a read phase; and some
buffer bytes are drawn. -/
def Trace (a : BusAddr) (b r : Nat) (P : List Event → Prop) (s t : State) : Prop :=
  ∃ evs d, t = (s.afterCalls evs).takeDraws d ∧ (∀ e ∈ evs, e.On a) ∧ evs.countP Event.triesBegin = b ∧
    evs.countP Event.triesRequest ≤ r ∧ P evs

theorem trace_nil (a : BusAddr) {P : List Event → Prop} (h : P []) (s : State) (n : Nat) :
    Trace a 0 0 P s (s.takeDraws n) :=
  ⟨[], n, by simp [State.afterCalls, State.takeDraws], by simp, rfl, Nat.le_refl 0, h⟩

theorem trace_append {a : BusAddr} {b b' r r' : Nat} {P P' Q : List Event → Prop} {s t u : State}
    (h : Trace a b r P s t) (h' : Trace a b' r' P' t u) (hq : ∀ x y, P x → P' y → Q (x ++ y)) :
    Trace a (b + b') (r + r') Q s u := by
  obtain ⟨e₁, d₁, rfl, o₁, b₁, r₁, p₁⟩ := h
  obtain ⟨e₂, d₂, rfl, o₂, b₂, r₂, p₂⟩ := h'
  refine ⟨e₁ ++ e₂, d₁ + d₂, ?_, fun e he => (List.mem_append.1 he).elim (o₁ e) (o₂ e),
    by rw [List.countP_append, b₁, b₂], by rw [List.countP_append]; omega, hq _ _ p₁ p₂⟩
  rw [afterCalls_takeDraws, afterCalls_append]
  simp [State.takeDraws, Nat.add_assoc]

theorem trace_mono {a : BusAddr} {b r r' : Nat} {P Q : List Event → Prop} {s t : State} (h : Trace a b r P s t)
    (hr : r ≤ r') (hq : ∀ x, P x → Q x) : Trace a b r' Q s t := by
  obtain ⟨evs, d, e, o, hb, h1, p⟩ := h
  exact ⟨evs, d, e, o, hb, Nat.le_trans h1 hr, hq _ p⟩

theorem trace_params {a : BusAddr} {b r : Nat} {P : List Event → Prop} {s t : State} (h : Trace a b r P s t) :
    t.params = s.params := by
  obtain ⟨_, _, rfl, _⟩ := h
  rfl

theorem trace_sess {a : BusAddr} {b r : Nat} {P : List Event → Prop} {s t : State} (h : Trace a b r P s t) :
    t.sess = s.sess := by
  obtain ⟨_, _, rfl, _⟩ := h
  rfl

/-- How a sequence that goes on has run. -/
def Good (a : BusAddr) (b r : Nat) (s : State) {α : Type} (_ : α) (t : State) : Prop :=
  Trace a b r (Clean s.params.shortReadPolicy) s t

/-- How a sequence that raises CommError has run. -/
def Bad (a : BusAddr) (b r : Nat) (s t : State) : Prop := Trace a b r (Broken s.params.shortReadPolicy) s t

/-- A sequence that never meets the model fault, in terms of the two relations. -/
abbrev BusResult.Runs {α : Type} (x : BusResult α) (a : BusAddr) (b r : Nat) (s : State) : Prop :=
  x.Ends (Good a b r s) (Bad a b r s) fun _ => False

theorem runs_done (a : BusAddr) {α : Type} (v : α) (s : State) : (BusResult.done v s).Runs a 0 0 s :=
  trace_nil a (by simp [Clean]) s 0

/-- Chain a sequence with one that begins no transaction. -/
theorem runs_andThen {a : BusAddr} {b r r' : Nat} {s : State} {α β : Type} {x : BusResult α}
    {k : α → State → BusResult β} (hx : x.Runs a b r s)
    (hk : ∀ v t, Good a b r s v t → (k v t).Runs a 0 r' t) : (x.andThen k).Runs a b (r + r') s := by
  cases x with
  | done v t =>
    refine ends_mono (hk v t hx) (fun _ u h => ?_) (fun u h => ?_) fun _ h => h
    · exact trace_append hx h fun _ _ h1 h2 => clean_append h1 (trace_params hx ▸ h2)
    · exact trace_append hx h fun _ _ h1 h2 => broken_append h1 (trace_params hx ▸ h2)
  | commError t => exact trace_mono hx (Nat.le_add_right r r') fun _ h => h
  | faulted f t => exact hx

theorem runs_call {a : BusAddr} {b r : Nat} {p : Primitive} {ev : Answer → Event} {s : State}
    (hon : ∀ x, (ev x).On a) (hr : ∀ x, (ev x).raises s.params.shortReadPolicy = false)
    (hb : ∀ x, [ev x].countP Event.triesBegin = b) (hb' : [Event.exc p].countP Event.triesBegin = b)
    (hq : ∀ x, [ev x].countP Event.triesRequest ≤ r) (hq' : [Event.exc p].countP Event.triesRequest ≤ r) :
    (call p ev s).Runs a b r s := by
  rw [call_eq]
  split
  · exact ⟨[.exc p], 0, rfl, by simp [Event.On], hb', hq', [], .exc p, rfl, by simp [Clean], rfl⟩
  · exact ⟨[ev (s.answer 0)], 0, rfl, by simpa using hon _, hb _, hq _, by simpa [Clean] using hr _⟩

theorem runs_transaction (a : BusAddr) (bs : List Byte) (s : State) : (transaction a bs s).Runs a 1 0 s := by
  have bad : ∀ {es : List Event} {e : Event}, (∀ x ∈ es ++ [e], x.On a) →
      (es ++ [e]).countP Event.triesBegin = 1 → (es ++ [e]).countP Event.triesRequest ≤ 0 →
      Clean s.params.shortReadPolicy es → e.raises s.params.shortReadPolicy = true →
      Bad a 1 0 s (s.afterCalls (es ++ [e])) := fun h1 h2 h3 h4 h5 => ⟨_, 0, rfl, h1, h2, h3, _, _, rfl, h4, h5⟩
  rw [transaction_eq]
  split
  · exact bad (es := []) (by simp [Event.On]) rfl (Nat.le_refl 0) (by simp [Clean]) rfl
  split
  · exact bad (es := [_]) (by simp [Event.On]) rfl (Nat.le_refl 0) (by simp [Clean, Event.raises]) rfl
  split
  · exact bad (es := [_, _]) (by simp [Event.On]) rfl (Nat.le_refl 0) (by simp [Clean, Event.raises]) rfl
  split
  · next h =>
    exact ⟨_, 0, rfl, by simp [State.writeEvents, Event.On], rfl, Nat.le_refl 0,
      by simpa [State.writeEvents, Clean, Event.raises] using h⟩
  · next h =>
    exact bad (es := [_, _]) (by simp [Event.On]) rfl (Nat.le_refl 0) (by simp [Clean, Event.raises])
      (by simpa [Event.raises] using h)

/-- The events of a loop that stopped at a count of zero. -/
def Short (p : ShortReadPolicy) (evs : List Event) : Prop := ∃ es, evs = es ++ [.avail 0] ∧ Clean p es

/-- The loop receives all `n` bytes, or fewer and its last event is a count of zero, or it raises (R75). -/
theorem runs_readLoop (a : BusAddr) (n : Nat) (s : State) :
    (readLoop n s).Ends
      (fun got t => (got.length = n ∧ Good a 0 0 s () t) ∨
        (got.length < n ∧ Trace a 0 0 (Short s.params.shortReadPolicy) s t))
      (Bad a 0 0 s) fun _ => False := by
  induction n generalizing s with
  | zero => exact .inl ⟨rfl, runs_done a () s⟩
  | succ n ih =>
    unfold readLoop tAvail
    rw [call_eq]
    split
    · exact ⟨[_], 0, rfl, by simp [Event.On], rfl, Nat.le_refl 0, [], _, rfl, by simp [Clean], rfl⟩
    simp only [BusResult.andThen]
    split
    · next h =>
      exact .inr ⟨Nat.zero_lt_succ n, [_], 0, rfl, by simp [Event.On], rfl, Nat.le_refl 0, [], by simp [h],
        by simp [Clean]⟩
    next h =>
    have h1 : Good a 0 0 s () (s.afterCalls [.avail (s.answer 0).avail]) :=
      ⟨[_], 0, rfl, by simp [Event.On], rfl, Nat.le_refl 0, by simp [Clean, Event.raises, h]⟩
    generalize s.afterCalls [.avail (s.answer 0).avail] = t at h1
    have h2 := runs_call (a := a) (b := 0) (r := 0) (p := .readByte) (ev := fun x => .readByte x.byte) (s := t)
      (fun _ => trivial) (fun _ => rfl) (fun _ => rfl) rfl (fun _ => Nat.le_refl 0) (Nat.le_refl 0)
    unfold tReadByte
    generalize call .readByte (fun x => .readByte x.byte) t = x at h2
    have pt := trace_params h1
    cases x with
    | commError u => exact trace_append h1 h2 fun _ _ c c' => broken_append c (pt ▸ c')
    | faulted f u => exact h2
    | done v u =>
      have h3 : Good a 0 0 s () u := trace_append h1 h2 fun _ _ c c' => clean_append c (pt ▸ c')
      have pu := trace_params h3
      have h4 := ih u
      simp only
      generalize readLoop n u = y at h4
      cases y with
      | commError w => exact trace_append h3 h4 fun _ _ c c' => broken_append c (pu ▸ c')
      | faulted f w => exact h4
      | done bs w =>
        rcases h4 with ⟨hl, h4⟩ | ⟨hl, h4⟩
        · exact .inl ⟨by simp [hl], trace_append h3 h4 fun _ _ c c' => clean_append c (pu ▸ c')⟩
        · refine .inr ⟨by simpa using hl, trace_append h3 h4 fun x y c c' => ?_⟩
          obtain ⟨es, rfl, hc⟩ := c'
          exact ⟨x ++ es, by simp, clean_append c (pu ▸ hc)⟩

theorem runs_memWrite {a : BusAddr} {reg : Byte} {bs : List Byte} {s : State} (ha : s.devAddr = some a) :
    (memWrite reg bs s).Runs a 1 0 s := by
  simp only [memWrite, ha]
  exact runs_transaction a _ s

theorem runs_memRead {a : BusAddr} {reg n : Byte} {s : State} (ha : s.devAddr = some a) :
    (memRead reg n s).Runs a 1 1 s := by
  simp only [memRead, ha]
  refine runs_andThen (r := 0) (r' := 1) (runs_transaction a [ptrByte s.params reg] s) fun _ t _ => ?_
  refine runs_andThen (r := 1) (r' := 0) (runs_call (fun _ => rfl) (fun _ => rfl) (fun _ => rfl) rfl
    (fun _ => Nat.le_refl 1) (Nat.le_refl 1)) fun _ u _ => ?_
  have hd : Good a 0 0 u () (u.takeDraws n.toNat) := trace_nil a (by simp [Clean]) u _
  have hl := runs_readLoop a n.toNat (u.takeDraws n.toNat)
  generalize readLoop n.toNat (u.takeDraws n.toNat) = x at hl
  cases x with
  | commError v => exact trace_append hd hl fun _ _ c c' => broken_append c c'
  | faulted f v => exact hl
  | done got v =>
    dsimp only [BusResult.andThen]
    rcases hl with ⟨hn, hl⟩ | ⟨hn, hl⟩
    · rw [if_neg (by omega)]
      exact trace_append hd hl fun _ _ c c' => clean_append c c'
    · have pv : v.params = u.params := (trace_params hl).trans rfl
      split
      · next h =>
        refine trace_append hd hl fun x y c c' => ?_
        obtain ⟨es, rfl, hc⟩ := c'
        exact broken_append c ⟨es, _, rfl, hc, by simp [Event.raises, ← pv, h.2]⟩
      · next h =>
        refine trace_append hd hl fun x y c c' => ?_
        obtain ⟨es, rfl, hc⟩ := c'
        refine clean_append c (clean_append hc ?_)
        have hp : u.params.shortReadPolicy ≠ .commError := fun hp => h ⟨hn, by rw [pv, hp]⟩
        simpa [Clean, Event.raises] using hp

theorem runs_readReg16 {a : BusAddr} {r : DeviceReg} {s : State} (ha : s.devAddr = some a) :
    (readReg16 r s).Runs a 1 1 s :=
  runs_andThen (r := 1) (r' := 0) (runs_memRead ha) fun _ t _ => runs_done a _ t

theorem runs_writeReg16 {a : BusAddr} {r : DeviceReg} {w : Word} {s : State} (ha : s.devAddr = some a) :
    (writeReg16 r w s).Runs a 1 0 s := runs_memWrite ha

/-- The buffer of MemRead has exactly the length asked for (R75): so a two-byte read has two bytes. -/
theorem memRead_length (reg n : Byte) (s : State) :
    (memRead reg n s).Ends (fun buf _ => buf.length = n.toNat) (fun _ => True) (fun _ => True) := by
  unfold memRead
  split
  · trivial
  refine ends_andThen (good := fun _ _ => True) ?_ fun _ t _ => ?_
  · exact ends_mono (runs_transaction _ _ s) (fun _ _ _ => trivial) (fun _ _ => trivial) fun _ h => h.elim
  refine ends_andThen (good := fun _ _ => True) ?_ fun _ u _ => ?_
  · unfold tRequest; rw [call_eq]; split <;> trivial
  have le : ∀ (a : BusAddr) (m : Nat) (v : State),
      (readLoop m v).Ends (fun got _ => got.length ≤ m) (fun _ => True) fun _ => True := fun a m v =>
    ends_mono (runs_readLoop a m v) (fun _ _ h => h.elim (fun h => Nat.le_of_eq h.1) fun h => Nat.le_of_lt h.1)
      (fun _ _ => trivial) fun _ h => h.elim
  refine ends_andThen (le 0 n.toNat _) fun got v hv => ?_
  split
  · trivial
  · simp only [BusResult.Ends, fillBuffer, State.drawn, List.length_append, List.length_drop,
      List.length_map, List.length_range]
    omega

/-! ## Ends of a command -/

/-- The three ways `finish` can end, by the end of the sequence (R94, R95). -/
theorem finish_ends {α : Type} {r : BusResult α} {onError : State → State} {k : α → State → Result}
    {good : α → State → Prop} {bad fault : State → Prop} {P : Result → Prop}
    (hr : r.Ends good bad fault) (hg : ∀ v t, good v t → P (k v t))
    (hb : ∀ t, bad t → P (raiseError (onError t) .commError))
    (hf : ∀ f t, fault t → P (.next (t.enterFault f))) : P (r.finish onError k) := by
  cases r with
  | done v t => exact hg v t hr
  | commError t => exact hb t hr
  | faulted f t => exact hf f t hr

end Sys2Proof.Machine
end

