-- ==== Sys2Proof/Laws/Exec.lean ====
section
/-! SUPPORT. What a command can do, by the four kinds of command, and in one inversion lemma over all of them
(`exec_cases`): later proofs cite it instead of unfolding a meaning. -/
namespace Sys2Proof.Machine

/-- Every command is of one of these kinds. -/
theorem instr_kinds (i : Instr) : IsCodec i = true ∨ IsPlainAccess i = true ∨ (∃ raw, i = .setAddress raw) ∨
    i = .checkComms ∨ i = .applyConfig ∨ (∃ raw, i = .beginSession raw) ∨ ∃ sel f, i = .setConfig sel f := by
  cases i <;> simp [IsCodec, IsPlainAccess]

theorem plainAccess_needsAddress {i : Instr} (h : IsPlainAccess i = true) : NeedsAddress i = true := by
  cases i <;> simp_all [IsPlainAccess, NeedsAddress]

/-- A command that needs the bus while `dev_addr = none` enters the model fault (R95). -/
theorem plainAccess_begins {i : Instr} (h : IsPlainAccess i = true) : maxBegins i = 1 := by
  cases i <;> simp_all [IsPlainAccess, maxBegins]

theorem exec_unaddressed {i : Instr} {s : State} (h : NeedsAddress i = true) (hs : s.devAddr = none) :
    exec i s = .next (s.enterFault .usedBeforeAddressed) := by
  cases i <;> simp [NeedsAddress] at h <;>
  simp [exec, execWriteRegister, execReadRegister, execCheckComms, execApplyConfig, execReadConfig,
    execGetIlluminance, execGetHighLimit, execSetHighLimit, execGetLowLimit, execSetLowLimit, getLimit,
    setLimit, memWrite_none hs, memRead_none hs, readReg16_none hs, writeReg16_none hs, BusResult.finish]

/-- A codec command returns OK and nothing else. -/
theorem codec_next {i : Instr} {s : State} (h : IsCodec i = true) :
    ∃ p, PayloadKind i p ∧ exec i s = .next (s.returnWith ⟨.ok, p⟩) := by
  cases i <;> simp [IsCodec] at h
  · exact ⟨_, ⟨_, _, rfl⟩, rfl⟩
  · exact ⟨_, ⟨_, rfl⟩, rfl⟩
  · exact ⟨_, ⟨_, _, rfl⟩, rfl⟩
  · exact ⟨_, ⟨_, _, rfl⟩, rfl⟩
  · exact ⟨_, ⟨_, _, rfl⟩, rfl⟩

/-- How a command's transport calls end for its response: none of them failed and it returns OK, or the last one
failed and it returns CommError. -/
def OkOrComm (i : Instr) (a : BusAddr) (b r : Nat) (s u : State) (res : Response) : Prop :=
  (Good a b r s () u ∧ res.status = .ok ∧ PayloadKind i res.payload) ∨
  (Bad a b r s u ∧ res = ⟨.commError, .none⟩)

theorem finish_plain {i : Instr} {s : State} {a : BusAddr} {b r : Nat} {α : Type} (x : BusResult α)
    (Q : α → State → Prop) (k : α → State → Payload) (hx : x.Runs a b r s)
    (hq : x.Ends Q (fun _ => True) (fun _ => True)) (hk : ∀ v t, Q v t → PayloadKind i (k v t)) :
    ∃ u res, x.finish id (fun v t => returnOk t (k v t)) = .next (u.returnWith res) ∧
      OkOrComm i a b r s u res := by
  cases x with
  | done v t => exact ⟨t, ⟨.ok, k v t⟩, rfl, .inl ⟨hx, rfl, hk v t hq⟩⟩
  | commError t => exact ⟨t, _, rfl, .inr ⟨hx, rfl⟩⟩
  | faulted f t => exact hx.elim

/-- A plain access command with an address: transport calls, then one response. -/
theorem plainAccess_ends {i : Instr} {s : State} {a : BusAddr} (h : IsPlainAccess i = true)
    (ha : s.devAddr = some a) :
    ∃ u res, exec i s = .next (u.returnWith res) ∧ OkOrComm i a 1 (maxRequests i) s u res := by
  have any : ∀ {α : Type} (r : BusResult α), r.Ends (fun _ _ => True) (fun _ => True) (fun _ => True) :=
    fun r => by cases r <;> trivial
  cases i <;> simp [IsPlainAccess] at h
  case writeRegister reg data =>
    exact finish_plain _ _ (fun _ _ => .none) (runs_memWrite ha) (any _) fun _ _ _ => rfl
  case readRegister reg len =>
    exact finish_plain _ _ (fun b _ => .data b) (runs_memRead ha) (memRead_length _ _ _) fun _ _ h => ⟨_, rfl, h⟩
  case readConfig =>
    exact finish_plain _ _ (fun w _ => .config (unpackCfg w)) (runs_readReg16 ha) (any _) fun _ _ _ => ⟨_, rfl⟩
  case getIlluminance =>
    exact finish_plain _ _ (fun w t => luxPayload t.params.luxScale (readingOf w) (exponentOf w))
      (runs_readReg16 ha) (any _) fun _ _ _ => ⟨_, _, rfl⟩
  case getHighLimit =>
    exact finish_plain _ _ (fun w _ => unpackRes w) (runs_readReg16 ha) (any _) fun _ _ _ => ⟨_, _, rfl⟩
  case getLowLimit =>
    exact finish_plain _ _ (fun w _ => unpackRes w) (runs_readReg16 ha) (any _) fun _ _ _ => ⟨_, _, rfl⟩
  case setHighLimit r e =>
    exact finish_plain _ _ (fun _ _ => .none) (runs_writeReg16 ha) (any _) fun _ _ _ => rfl
  case setLowLimit r e =>
    exact finish_plain _ _ (fun _ _ => .none) (runs_writeReg16 ha) (any _) fun _ _ _ => rfl

theorem advanceVerified_eq (s : State) :
    s.advanceVerified = s.setSess (if s.sess = .addressed then .verified else s.sess) := by
  unfold State.advanceVerified; split <;> rfl

theorem advanceConfigured_eq (s : State) : s.advanceConfigured =
    s.setSess (if s.sess = .verified ∨ s.sess = .configured then .configured else s.sess) := by
  unfold State.advanceConfigured; split <;> rfl

theorem dropConfigured_eq (s : State) :
    s.dropConfigured = s.setSess (if s.sess = .configured then .verified else s.sess) := by
  unfold State.dropConfigured; split <;> rfl

/-- CHECK_COMMS with an address (R80). -/
theorem checkComms_ends {s : State} {a : BusAddr} (ha : s.devAddr = some a) :
    ∃ u v res, exec .checkComms s = .next ((u.setSess v).returnWith res) ∧
      (∀ evs, SessMove .checkComms s.sess evs res.status v) ∧
      (OkOrComm .checkComms a 1 1 s u res ∨ (Good a 1 1 s () u ∧ res = ⟨.identityMismatch, .none⟩)) := by
  have E := runs_readReg16 (r := .manufacturerId) ha
  simp only [exec, execCheckComms]
  generalize readReg16 .manufacturerId s = x at *
  cases x with
  | faulted f t => exact E.elim
  | commError t => exact ⟨t, .addressed, ⟨.commError, .none⟩, rfl, fun _ => rfl, .inl (.inr ⟨E, rfl⟩)⟩
  | done w t =>
    simp only [BusResult.finish]
    split
    · exact ⟨t, .addressed, ⟨.identityMismatch, .none⟩, rfl, fun _ => rfl, .inr ⟨E, rfl⟩⟩
    · refine ⟨t, _, ⟨.ok, .none⟩, ?_, fun _ => rfl, .inl (.inl ⟨E, rfl, rfl⟩)⟩
      rw [advanceVerified_eq, trace_sess E]
      rfl

/-- APPLY_CONFIG with an address (R81). -/
theorem applyConfig_ends {s : State} {a : BusAddr} (ha : s.devAddr = some a) :
    ∃ u v res, exec .applyConfig s = .next ((u.setSess v).returnWith res) ∧
      (∀ evs, SessMove .applyConfig s.sess evs res.status v) ∧ OkOrComm .applyConfig a 1 0 s u res := by
  have E := runs_writeReg16 (r := .configuration) (w := s.softCfg) ha
  simp only [exec, execApplyConfig]
  generalize writeReg16 .configuration s.softCfg s = x at *
  cases x with
  | faulted f t => exact E.elim
  | commError t =>
    refine ⟨t, _, ⟨.commError, .none⟩, ?_, fun _ => rfl, .inr ⟨E, rfl⟩⟩
    simp only [BusResult.finish, dropConfigured_eq, trace_sess E]
    rfl
  | done w t =>
    refine ⟨t, _, ⟨.ok, .none⟩, ?_, fun _ => rfl, .inl ⟨E, rfl, rfl⟩⟩
    simp only [BusResult.finish, advanceConfigured_eq, trace_sess E]
    rfl

/-- BEGIN (R82): how many transactions it tries to begin tells the identity read from the configuration write. -/
theorem beginSession_ends (s : State) (raw : Byte) :
    ∃ b u v res, b ≤ 2 ∧ exec (.beginSession raw) s = .next ((u.setSess v).returnWith res) ∧
      (∀ evs, evs.countP Event.triesBegin = b → SessMove (.beginSession raw) s.sess evs res.status v) ∧
      (OkOrComm (.beginSession raw) (normAddr s.params raw) b 1 (s.address raw) u res ∨
        (Good (normAddr s.params raw) b 1 (s.address raw) () u ∧ res = ⟨.identityMismatch, .none⟩)) := by
  have E := runs_readReg16 (r := .manufacturerId) (s := s.address raw) (a := normAddr s.params raw) rfl
  simp only [exec, execBegin]
  generalize readReg16 .manufacturerId (s.address raw) = x at *
  cases x with
  | faulted f t => exact E.elim
  | commError t =>
    refine ⟨1, t, .addressed, ⟨.commError, .none⟩, by decide, ?_, fun evs h => ?_, .inl (.inr ⟨E, rfl⟩)⟩
    · obtain ⟨evs, d, rfl, -⟩ := E
      rfl
    · simp [SessMove, h]
  | done w t =>
    simp only [BusResult.finish]
    split
    · refine ⟨1, t, .addressed, ⟨.identityMismatch, .none⟩, by decide, ?_, fun _ _ => rfl, .inr ⟨E, rfl⟩⟩
      obtain ⟨evs, d, rfl, -⟩ := E
      rfl
    · have E2 := runs_writeReg16 (r := .configuration) (w := t.softCfg) (s := t.setSess .verified)
        (a := normAddr s.params raw) (by obtain ⟨evs, d, rfl, -⟩ := E; rfl)
      generalize writeReg16 .configuration t.softCfg (t.setSess .verified) = y at *
      have join : ∀ {P Q : List Event → Prop} {u : State}, Trace (normAddr s.params raw) 1 0 P (t.setSess .verified) u →
          (∀ x y, Clean s.params.shortReadPolicy x → P y → Q (x ++ y)) →
          Trace (normAddr s.params raw) 2 1 Q (s.address raw) (u.setSess .addressed) ∧ u.setSess .verified = u := by
        rintro P Q u ⟨e₂, d₂, rfl, o, hb, hr, hp⟩ hq
        refine ⟨trace_append E (P' := P) ⟨e₂, d₂, ?_, o, hb, hr, hp⟩ hq, rfl⟩
        obtain ⟨evs, d, rfl, -⟩ := E
        rfl
      have ht : (t.setSess .verified).params = s.params := by obtain ⟨evs, d, rfl, -⟩ := E; rfl
      cases y with
      | faulted f u => exact E2.elim
      | commError u =>
        obtain ⟨h1, h2⟩ := join (Q := Broken s.params.shortReadPolicy) E2
          fun _ _ c c' => broken_append c (ht ▸ c')
        refine ⟨2, u.setSess .addressed, .verified, ⟨.commError, .none⟩, by decide, ?_, fun evs h => ?_,
          .inl (.inr ⟨h1, rfl⟩)⟩
        · rw [show (u.setSess .addressed).setSess .verified = u.setSess .verified from rfl, h2]
          rfl
        · simp [SessMove, h]
      | done z u =>
        have h1 := (join (Q := Clean s.params.shortReadPolicy) E2 fun _ _ c c' => clean_append c (ht ▸ c')).1
        exact ⟨2, u.setSess .addressed, .configured, ⟨.ok, .none⟩, by decide, rfl, fun _ _ => rfl,
          .inl (.inl ⟨h1, rfl, rfl⟩)⟩

/-! ## One inversion lemma over all commands -/

/-- What a command that does not fault leaves: `evs` are its calls, `a`, `v`, `w` the registers it leaves, `res` its
response. -/
structure Ran (i : Instr) (s t : State) (a : Option BusAddr) (evs : List Event) (d : Nat) (v : SessState)
    (w : Word) (res : Response) : Prop where
  /-- The whole next state. -/
  state : t = (((({ s.afterCalls evs with devAddr := a }).takeDraws d).setSess v).setSoftCfg w).returnWith res
  /-- How many transactions and read phases it tries (R45). -/
  tries : evs.countP Event.triesBegin ≤ maxBegins i ∧ evs.countP Event.triesRequest ≤ maxRequests i
  /-- Every call that names an address names the one held at the end. -/
  on_addr : ∀ e ∈ evs, ∀ b, (e = .beginTxn b ∨ ∃ n, e = .request b n) → a = some b
  /-- `dev_addr` is kept, but by SET_ADDRESS and BEGIN. -/
  addr : (a = s.devAddr ∧ ∀ raw, i ≠ .setAddress raw ∧ i ≠ .beginSession raw) ∨
    ∃ raw, (i = .setAddress raw ∨ i = .beginSession raw) ∧ a = some (normAddr s.params raw)
  /-- `sess` moves by the table of R90. -/
  move : SessMove i s.sess evs res.status v
  /-- `soft_cfg` is kept, but by SET_CONFIG. -/
  cfg : w = s.softCfg ∨ ∃ sel f, i = .setConfig sel f
  /-- The response, and how the calls ended. -/
  ended : (res.status = .ok ∧ PayloadKind i res.payload ∧ Clean s.params.shortReadPolicy evs) ∨
    (res = ⟨.identityMismatch, .none⟩ ∧ (i = .checkComms ∨ ∃ raw, i = .beginSession raw) ∧
      Clean s.params.shortReadPolicy evs) ∨
    (res = ⟨.commError, .none⟩ ∧ (NeedsAddress i = true ∨ ∃ raw, i = .beginSession raw) ∧
      Broken s.params.shortReadPolicy evs)

/-- A command that makes no call. -/
theorem ran_pure {i : Instr} {s : State} {p : Payload} (hi : ∀ raw, i ≠ .setAddress raw ∧ i ≠ .beginSession raw)
    (hm : SessMove i s.sess [] .ok s.sess) (hp : PayloadKind i p) {w : Word}
    (hw : w = s.softCfg ∨ ∃ sel f, i = .setConfig sel f) :
    Ran i s ((s.setSoftCfg w).returnWith ⟨.ok, p⟩) s.devAddr [] 0 s.sess w ⟨.ok, p⟩ where
  state := by simp [State.afterCalls, State.takeDraws, State.setSess, State.setSoftCfg, State.returnWith]
  on_addr := by simp
  addr := .inl ⟨rfl, hi⟩
  move := hm
  cfg := hw
  tries := ⟨Nat.zero_le _, Nat.zero_le _⟩
  ended := .inl ⟨rfl, hp, by simp [Clean]⟩

theorem on_addr_of {a : BusAddr} {evs : List Event} (h : ∀ e ∈ evs, Event.On a e) :
    ∀ e ∈ evs, ∀ b, (e = Event.beginTxn b ∨ ∃ n, e = Event.request b n) → some a = some b := by
  intro e he b hb
  have := h e he
  rcases hb with rfl | ⟨n, rfl⟩ <;> simp [Event.On] at this <;> simp [this]

/-- The form of `OkOrComm`, or IDENTITY_MISMATCH, that `Ran` has: `s₀` is the state the calls start from. -/
theorem ended_of {i : Instr} {a : BusAddr} {b r : Nat} {s₀ u : State} {res : Response}
    (hi : NeedsAddress i = true ∨ ∃ raw, i = .beginSession raw)
    (h : OkOrComm i a b r s₀ u res ∨ (Good a b r s₀ () u ∧ res = ⟨.identityMismatch, .none⟩ ∧
      (i = .checkComms ∨ ∃ raw, i = .beginSession raw))) :
    Trace a b r (fun evs =>
      (res.status = .ok ∧ PayloadKind i res.payload ∧ Clean s₀.params.shortReadPolicy evs) ∨
      (res = ⟨.identityMismatch, .none⟩ ∧ (i = .checkComms ∨ ∃ raw, i = .beginSession raw) ∧
        Clean s₀.params.shortReadPolicy evs) ∨
      (res = ⟨.commError, .none⟩ ∧ (NeedsAddress i = true ∨ ∃ raw, i = .beginSession raw) ∧
        Broken s₀.params.shortReadPolicy evs)) s₀ u := by
  rcases h with (⟨h, h1, h2⟩ | ⟨h, h1⟩) | ⟨h, h1, h2⟩
  · exact trace_mono h (Nat.le_refl r) fun _ c => .inl ⟨h1, h2, c⟩
  · exact trace_mono h (Nat.le_refl r) fun _ c => .inr (.inr ⟨h1, hi, c⟩)
  · exact trace_mono h (Nat.le_refl r) fun _ c => .inr (.inl ⟨h1, h2, c⟩)

/-- A command either meets the model fault (R95) or runs. -/
theorem exec_cases {i : Instr} {s t : State} (he : exec i s = .next t) :
    (NeedsAddress i = true ∧ s.devAddr = none ∧ t = s.enterFault .usedBeforeAddressed) ∨
    (¬ (NeedsAddress i = true ∧ s.devAddr = none) ∧ ∃ a evs d v w res, Ran i s t a evs d v w res) := by
  by_cases hna : NeedsAddress i = true ∧ s.devAddr = none
  · rw [exec_unaddressed hna.1 hna.2] at he
    cases he
    exact .inl ⟨hna.1, hna.2, rfl⟩
  refine .inr ⟨hna, ?_⟩
  have held : NeedsAddress i = true → ∃ a, s.devAddr = some a := fun hn => by
    cases hd : s.devAddr with
    | none => exact absurd ⟨hn, hd⟩ hna
    | some a => exact ⟨a, rfl⟩
  rcases instr_kinds i with h | h | ⟨raw, rfl⟩ | rfl | rfl | ⟨raw, rfl⟩ | ⟨sel, f, rfl⟩
  · obtain ⟨p, hp, e⟩ := codec_next (s := s) h
    rw [e] at he; cases he
    refine ⟨_, _, _, _, s.softCfg, _, ran_pure ?_ ?_ hp (.inl rfl)⟩
    · intro raw
      constructor <;> rintro rfl <;> simp [IsCodec] at h
    · cases i <;> simp [IsCodec] at h <;> rfl
  · have hn := plainAccess_needsAddress h
    obtain ⟨a, ha⟩ := held hn
    obtain ⟨u, res, e, hx⟩ := plainAccess_ends h ha
    obtain ⟨evs, d, rfl, hon, hb, hq, hend⟩ := ended_of (.inl hn) (.inl hx)
    rw [e] at he; cases he
    refine ⟨s.devAddr, evs, d, s.sess, s.softCfg, res, ⟨rfl, ⟨by rw [hb, plainAccess_begins h], hq⟩,
      by rw [ha]; exact on_addr_of hon, .inl ⟨rfl, ?_⟩, ?_, .inl rfl, hend⟩⟩
    · intro raw
      constructor <;> rintro rfl <;> simp [IsPlainAccess] at h
    · cases i <;> simp [IsPlainAccess] at h <;> rfl
  · cases he
    refine ⟨some (normAddr s.params raw), [], 0, .addressed, s.softCfg, ⟨.ok, .none⟩, ⟨?_,
      ⟨Nat.zero_le _, Nat.zero_le _⟩, by simp, .inr ⟨raw, .inl rfl, rfl⟩, rfl, .inl rfl, .inl ⟨rfl, rfl, by simp [Clean]⟩⟩⟩
    simp [State.afterCalls, State.takeDraws, State.address, State.setDevAddr, State.setSess,
      State.setSoftCfg, State.returnWith]
  · obtain ⟨a, ha⟩ := held rfl
    obtain ⟨u, v, res, e, hm, hx⟩ := checkComms_ends ha
    obtain ⟨evs, d, rfl, hon, hb, hq, hend⟩ := ended_of (.inl rfl) (hx.imp id fun h => ⟨h.1, h.2, .inl rfl⟩)
    rw [e] at he; cases he
    exact ⟨s.devAddr, evs, d, v, s.softCfg, res, ⟨rfl, ⟨Nat.le_of_eq hb, hq⟩, by rw [ha]; exact on_addr_of hon,
      .inl ⟨rfl, by simp⟩, hm evs, .inl rfl, hend⟩⟩
  · obtain ⟨a, ha⟩ := held rfl
    obtain ⟨u, v, res, e, hm, hx⟩ := applyConfig_ends ha
    obtain ⟨evs, d, rfl, hon, hb, hq, hend⟩ := ended_of (.inl rfl) (.inl hx)
    rw [e] at he; cases he
    exact ⟨s.devAddr, evs, d, v, s.softCfg, res, ⟨rfl, ⟨Nat.le_of_eq hb, hq⟩,
      by rw [ha]; exact on_addr_of hon, .inl ⟨rfl, by simp⟩, hm evs, .inl rfl, hend⟩⟩
  · obtain ⟨b, u, v, res, hb2, e, hm, hx⟩ := beginSession_ends s raw
    obtain ⟨evs, d, rfl, hon, hb, hq, hend⟩ :=
      ended_of (.inr ⟨raw, rfl⟩) (hx.imp id fun h => ⟨h.1, h.2, .inr ⟨raw, rfl⟩⟩)
    rw [e] at he; cases he
    exact ⟨some (normAddr s.params raw), evs, d, v, s.softCfg, res, ⟨rfl, ⟨by rw [hb]; exact hb2, hq⟩,
      on_addr_of hon, .inr ⟨raw, .inr rfl, rfl⟩, hm evs hb, .inl rfl, hend⟩⟩
  · cases he
    exact ⟨_, _, _, _, _, _, ran_pure (i := .setConfig sel f) (s := s) (p := .none) (by simp) rfl rfl
      (w := updateCfg s.softCfg sel (fieldInputs s.params f)) (.inr ⟨_, _, rfl⟩)⟩

/-! ## The step -/

theorem noMove_ready {s : State} (h : s.Ready) : noMove s = none := by
  obtain ⟨⟨h1, h2⟩, h3⟩ := h
  simp [noMove, h1, h2, h3]

/-- A step that answers a next state idled, refused, or ran a command it accepted. -/
theorem step_next {s t : State} (h : step s = .next t) :
    (s.port = [] ∧ t = s) ∨ (∃ e, fetch s = .undecodable e ∧ t = s.refuse) ∨
    ∃ i rest, fetch s = .command i (s.accept rest) ∧ exec i (s.accept rest) = .next t := by
  unfold step at h
  split at h
  · next r hr =>
    unfold noMove at hr
    rw [h] at hr
    repeat' split at hr
    all_goals cases hr
  · split at h
    · next hf =>
      unfold fetch at hf
      cases h
      split at hf
      · next hp => exact .inl ⟨hp, rfl⟩
      · split at hf <;> cases hf
    · next e hf => cases h; exact .inr (.inl ⟨e, hf, rfl⟩)
    · next i u hf =>
      have hf' := hf
      unfold fetch at hf
      split at hf
      · cases hf
      · split at hf
        · cases hf
        · cases hf
          exact .inr (.inr ⟨i, _, hf', h⟩)

end Sys2Proof.Machine
end

