-- ==== Sys2Proof/Laws/PerInstr.lean ====
section
/-! SUPPORT. Statements for all instructions, one lemma per constructor (30_encoding.md R54, R55). -/
namespace Sys2Proof.Laws.SerialLength

/-- The serialised command has its row's opcode and format in the opcode map and exactly the length of that
format; the length byte of format WR is its third byte. -/
def Statement (i : Instr) : Prop :=
  ∀ p : Params, i.WellFormed p → (i.opcode, i.format) ∈ opcodeMap ∧ (encode i).head? = some i.opcode ∧
    (encode i).length = i.format.serialLength ((encode i).getD 2 0).toNat

theorem encodeConfig (f : CfgInputs) : Statement (.encodeConfig f) := fun _ _ => ⟨by simp [Instr.opcode, Instr.format, opcodeMap], rfl, rfl⟩

theorem decodeConfig (b0 b1 : Byte) : Statement (.decodeConfig b0 b1) := fun _ _ => ⟨by simp [Instr.opcode, Instr.format, opcodeMap], rfl, rfl⟩

theorem encodeResult (r e : Word) : Statement (.encodeResult r e) := fun _ _ => ⟨by simp [Instr.opcode, Instr.format, opcodeMap], rfl, rfl⟩

theorem decodeResult (b0 b1 : Byte) : Statement (.decodeResult b0 b1) := fun _ _ => ⟨by simp [Instr.opcode, Instr.format, opcodeMap], rfl, rfl⟩

theorem illuminance (r e : Word) : Statement (.illuminance r e) := fun _ _ => ⟨by simp [Instr.opcode, Instr.format, opcodeMap], rfl, rfl⟩

theorem writeRegister (reg : Byte) (data : List Byte) : Statement (.writeRegister reg data) := by
  intro p h
  have hd : data.length ≤ p.maxXferLen.toNat := of_decide_eq_true h
  have hp := p.maxXferLen.isLt
  refine ⟨by simp [Instr.opcode, Instr.format, opcodeMap], rfl, ?_⟩
  simp [encode, Instr.operandBytes, Instr.format, Format.serialLength]
  omega

theorem readRegister (reg len : Byte) : Statement (.readRegister reg len) := fun _ _ => ⟨by simp [Instr.opcode, Instr.format, opcodeMap], rfl, rfl⟩

theorem setAddress (raw : Byte) : Statement (.setAddress raw) := fun _ _ => ⟨by simp [Instr.opcode, Instr.format, opcodeMap], rfl, rfl⟩

theorem checkComms : Statement .checkComms := fun _ _ => ⟨by simp [Instr.opcode, Instr.format, opcodeMap], rfl, rfl⟩

theorem applyConfig : Statement .applyConfig := fun _ _ => ⟨by simp [Instr.opcode, Instr.format, opcodeMap], rfl, rfl⟩

theorem beginSession (raw : Byte) : Statement (.beginSession raw) := fun _ _ => ⟨by simp [Instr.opcode, Instr.format, opcodeMap], rfl, rfl⟩

theorem setConfig (sel : Word) (f : CfgInputs) : Statement (.setConfig sel f) := fun _ _ => ⟨by simp [Instr.opcode, Instr.format, opcodeMap], rfl, rfl⟩

theorem readConfig : Statement .readConfig := fun _ _ => ⟨by simp [Instr.opcode, Instr.format, opcodeMap], rfl, rfl⟩

theorem getIlluminance : Statement .getIlluminance := fun _ _ => ⟨by simp [Instr.opcode, Instr.format, opcodeMap], rfl, rfl⟩

theorem getHighLimit : Statement .getHighLimit := fun _ _ => ⟨by simp [Instr.opcode, Instr.format, opcodeMap], rfl, rfl⟩

theorem setHighLimit (r e : Word) : Statement (.setHighLimit r e) := fun _ _ => ⟨by simp [Instr.opcode, Instr.format, opcodeMap], rfl, rfl⟩

theorem getLowLimit : Statement .getLowLimit := fun _ _ => ⟨by simp [Instr.opcode, Instr.format, opcodeMap], rfl, rfl⟩

theorem setLowLimit (r e : Word) : Statement (.setLowLimit r e) := fun _ _ => ⟨by simp [Instr.opcode, Instr.format, opcodeMap], rfl, rfl⟩

end Sys2Proof.Laws.SerialLength
end

