-- ==== Sys2Proof/Tests/Slice0.lean ====
section
/-! SUPPORT. Tests whose expected results are the vectors of spec/95_test_vectors.md (the row is named in each
comment), words written out from 30_encoding.md R54 and R55, and one witness for the hypotheses of every
obligation that has some. -/
namespace Sys2Proof.Tests
open Sys2Proof.Machine

/-! ## Helpers -/

/-- The parameters of the vectors, `SOFT_CONFIG_RESET` being the instance `0xC810` that 95 names. -/
def params : Params := ⟨16, 7, 8, 16, 0x44, 0x03, .msbFirst, 0x5449, 0xC810, 6 / 5, .tolerate, 255⟩

/-- Answers that carry one value, and one that carries none. -/
def void : Answer := ⟨false, 0, 0, 0⟩
def exc : Answer := ⟨true, 0, 0, 0⟩
def endA (st : Byte) : Answer := ⟨false, st, 0, 0⟩
def availA (n : Nat) : Answer := ⟨false, 0, n, 0⟩
def byteA (b : Byte) : Answer := ⟨false, 0, 0, b⟩

/-- A read that delivers two bytes. -/
def read2 (b0 b1 : Byte) : List Answer :=
  [void, void, endA 0, void, availA 2, byteA b0, availA 1, byteA b1]

/-- A write that closes with `st`. -/
def write1 (st : Byte) : List Answer := [void, void, endA st]

/-- A state with a session state, an address, a configuration and a script. -/
def st (v : SessState) (a : Option BusAddr) (script : List Answer) : State :=
  { State.resetWith params with sess := v, devAddr := a, script := script }

/-- What the tests look at. -/
structure Obs where
  sess      : SessState
  devAddr   : Option BusAddr
  softCfg   : Word
  responses : List Response
  hist      : List Event
  deriving DecidableEq, Repr

/-- Of a next state. -/
def obs : Result → Option Obs
  | .next s => some ⟨s.sess, s.devAddr, s.softCfg, s.responses, s.hist⟩
  | .fault _ => none
  | .refused _ => none

/-- The payloads of the responses. -/
def payloads : Result → List Payload
  | .next s => s.responses.map Response.payload
  | .fault _ => []
  | .refused _ => []

/-- The field inputs with all fields 0. -/
def zeros : CfgInputs := ⟨0, 0, 0, 0, 0, 0, 0, 0, 0, 0, 0⟩

/-! ## Well-formedness -/

/-- R57: 256 data bytes do not fit the 8-bit `len`; 255 do. -/
theorem test_illFormed_write : Instr.wellFormed params (.writeRegister 0x02 (List.replicate 256 0)) = false := by
  decide +kernel
theorem test_wellFormed_write : Instr.wellFormed params (.writeRegister 0x02 (List.replicate 255 0)) = true := by
  decide +kernel
/-- R41, R57: with `MAX_XFER_LEN = 16` a read of 17 bytes is not well-formed; one of 16 is. -/
theorem test_wellFormed_read : Instr.wellFormed { params with maxXferLen := 16 } (.readRegister 0x00 17) = false ∧
    Instr.wellFormed { params with maxXferLen := 16 } (.readRegister 0x00 16) = true := by decide

/-! ## Decoding: words written out from R54 and R55

The opcode byte, then the operands, 16-bit operands high byte first. Where 95 prints the serialised command, its
row is named. -/

/-- EC1, serialised (section 2). -/
theorem test_decode_encodeConfig :
    decode [0x01, 0, 0, 0, 0, 0, 0, 0, 1, 0, 0, 0, 0, 0, 0, 0, 0, 0, 0, 0, 1, 0, 0x0C] =
      .ok (.encodeConfig { zeros with l := 1, ct := 1, rn := 12 }, []) := by rfl
theorem test_decode_decodeConfig : decode [0x02, 0x12, 0x34] = .ok (.decodeConfig 0x12 0x34, []) := by rfl
/-- ER1, serialised (section 3). -/
theorem test_decode_encodeResult : decode [0x03, 0x00, 0x64, 0x00, 0x02] = .ok (.encodeResult 100 2, []) := by rfl
/-- P3 (section 8). -/
theorem test_decode_decodeResult : decode [0x04, 0x32, 0x34] = .ok (.decodeResult 0x32 0x34, []) := by rfl
/-- ILLUMINANCE ER9, serialised (section 3). -/
theorem test_decode_illuminance : decode [0x05, 0x12, 0x34, 0x00, 0x13] = .ok (.illuminance 0x1234 0x13, []) := by
  rfl
/-- RA1 and RA3 (section 6). -/
theorem test_decode_writeRegister :
    decode [0x10, 0x02, 0x02, 0xC0, 0x00] = .ok (.writeRegister 0x02 [0xC0, 0x00], []) ∧
    decode [0x10, 0x01, 0x00] = .ok (.writeRegister 0x01 [], []) := ⟨rfl, rfl⟩
/-- RA5 (section 6). -/
theorem test_decode_readRegister : decode [0x11, 0x00, 0x02] = .ok (.readRegister 0x00 2, []) := by rfl
/-- Section 4. -/
theorem test_decode_setAddress : decode [0x20, 0x7E] = .ok (.setAddress 0x7E, []) := by rfl
/-- P1 to P3 (section 8): the one-byte commands, and BEGIN. -/
theorem test_decode_byte_commands :
    decode [0x21] = .ok (.checkComms, []) ∧ decode [0x22] = .ok (.applyConfig, []) ∧
    decode [0x23, 0x44] = .ok (.beginSession 0x44, []) ∧ decode [0x25] = .ok (.readConfig, []) ∧
    decode [0x26] = .ok (.getIlluminance, []) ∧ decode [0x27] = .ok (.getHighLimit, []) ∧
    decode [0x29] = .ok (.getLowLimit, []) := ⟨rfl, rfl, rfl, rfl, rfl, rfl, rfl⟩
/-- SC1 with the 25 bytes that format CFM has: `sel`, then `fc` to `ovf` 0, `m = 2`, `ct = 1`, `rn = 0`. (The
row as printed has 27 bytes; log 13.) -/
theorem test_decode_setConfig :
    decode [0x24, 3, 0, 0, 0, 0, 0, 0, 0, 0, 0, 0, 0, 0, 0, 0, 0, 0, 0, 0, 2, 0, 1, 0, 0] =
      .ok (.setConfig 0x300 { zeros with m := 2, ct := 1 }, []) := by rfl
/-- P3 and SS21. -/
theorem test_decode_set_limits :
    decode [0x28, 0x0F, 0xFF, 0x00, 0x0B] = .ok (.setHighLimit 0xFFF 11, []) ∧
    decode [0x2A, 0x00, 0x00, 0x00, 0x0C] = .ok (.setLowLimit 0 12, []) := ⟨rfl, rfl⟩
/-- Section 7's refusal vectors. -/
theorem test_decode_refusals :
    decode [0x06] = .error (.unassignedOpcode 0x06) ∧ decode [0xFF] = .error (.unassignedOpcode 0xFF) ∧
    decode [0x00] = .error (.unassignedOpcode 0x00) ∧ decode [0x23] = .error .truncated ∧
    decode [0x28, 0x0F, 0xFF, 0x00] = .error .truncated := ⟨rfl, rfl, rfl, rfl, rfl⟩
/-- The table's numbering: byte 0 is bits 7:0 (RA5). -/
theorem test_decodeTableWord : decodeTableWord 24 0x020011 = some (.readRegister 0x00 2) ∧
    decodeTableWord 8 0x24 = some (.setConfig 0 zeros) ∧ decodeTableWord 8 0x06 = none := by decide
/-- R66's lines. -/
theorem test_assemble_rejects : Asm.assemble "SET_ADDRESS" = none ∧ Asm.assemble "JUMP 0x44" = none := by decide

/-! ## Register Codec -/

/-- EC4: truncation. -/
theorem test_encodeConfig : payloads (exec (.encodeConfig { zeros with fc := 7, m := 5, rn := 0x1F })
    (st .unstarted none [])) = [.wire 0xF2 0x03] := by decide
/-- EC7: mixed. -/
theorem test_encodeConfig_mixed :
    payloads (exec (.encodeConfig { zeros with fc := 3, me := 1, pol := 1, l := 1, m := 1, rn := 0xB })
      (st .unstarted none [])) = [.wire 0xB2 0x1F] := by decide
/-- DC1, and the same record with the other wire order. -/
theorem test_decodeConfig :
    payloads (exec (.decodeConfig 0x12 0x34) (st .unstarted none [])) =
      [.config ⟨0, 1, 0, 1, 1, 0, 0, 0, 1, 0, 1⟩] ∧
    payloads (exec (.decodeConfig 0x34 0x12) (State.resetWith { params with wireOrder := .lsbFirst })) =
      [.config ⟨0, 1, 0, 1, 1, 0, 0, 0, 1, 0, 1⟩] := by decide
/-- DC3. -/
theorem test_decodeConfig_status : payloads (exec (.decodeConfig 0xC8 0x90) (st .unstarted none [])) =
    [.config ⟨0, 0, 0, 1, 0, 0, 1, 0, 0, 1, 12⟩] := by decide
/-- ER9: both inputs truncated. -/
theorem test_encodeResult : payloads (exec (.encodeResult 0x1234 0x13) (st .unstarted none [])) =
    [.wire 0x32 0x34] := by decide
/-- ER9. -/
theorem test_decodeResult : payloads (exec (.decodeResult 0x32 0x34) (st .unstarted none [])) =
    [.result 564 3] := by decide
/-- ER9. -/
theorem test_illuminance : payloads (exec (.illuminance 0x1234 0x13) (st .unstarted none [])) =
    [.lux (27072 / 5) 4512] := by decide +kernel
/-- ER3: the largest result. -/
theorem test_illuminance_max : payloads (exec (.illuminance 4095 15) (st .unstarted none [])) =
    [.lux 161021952 134184960] := by decide +kernel

/-! ## Register Access Layer -/

/-- RA1. -/
theorem test_writeRegister :
    obs (exec (.writeRegister 0x02 [0xC0, 0x00]) (st .addressed (some 0x44) (write1 0))) =
      some ⟨.addressed, some 0x44, 0xC810, [⟨.ok, .none⟩],
        [.beginTxn 0x44, .write [0x02, 0xC0, 0x00], .endTxn 0]⟩ := by decide
/-- RA4: an exception at the write; no End follows. -/
theorem test_writeRegister_exc :
    obs (exec (.writeRegister 0x03 [0x12, 0x34]) (st .addressed (some 0x44) [void, exc])) =
      some ⟨.addressed, some 0x44, 0xC810, [⟨.commError, .none⟩], [.beginTxn 0x44, .exc .write]⟩ := by decide
/-- RA6. -/
theorem test_readRegister :
    obs (exec (.readRegister 0x7F 2) (st .addressed (some 0x45) (read2 0x30 0x01))) =
      some ⟨.addressed, some 0x45, 0xC810, [⟨.ok, .data [0x30, 0x01]⟩],
        [.beginTxn 0x45, .write [0x7F], .endTxn 0, .request 0x45 2, .avail 2, .readByte 0x30, .avail 1,
          .readByte 0x01]⟩ := by decide
/-- RA8 and RA9: a short read, whose last byte is the draw `d`. -/
theorem test_readRegister_short :
    let script := [void, void, endA 0, void, availA 1, byteA 0xAB, availA 0]
    payloads (exec (.readRegister 0x00 2) (st .addressed (some 0x44) script)) =
      [.data [0xAB, Config.freeByte 1]] ∧
    payloads (exec (.readRegister 0x00 2) { st .addressed (some 0x44) script with
      params := { params with shortReadPolicy := .commError } }) = [.none] := ⟨rfl, rfl⟩

/-! ## Sensor Session -/

/-- SS2: re-addressing. -/
theorem test_setAddress : obs (exec (.setAddress 0x45) (st .configured (some 0x44) [])) =
    some ⟨.addressed, some 0x45, 0xC810, [⟨.ok, .none⟩], []⟩ := by decide
/-- Section 4's raw addresses. -/
theorem test_normAddr : ([0x00, 0x01, 0x02, 0x03, 0x44, 0x45, 0x46, 0x47, 0x48, 0x7E, 0x80, 0x8B, 0xFF,
      0x05] : List Byte).map (normAddr params) =
    ([0x44, 0x45, 0x46, 0x47, 0x44, 0x45, 0x46, 0x47, 0x44, 0x46, 0x44, 0x47, 0x47, 0x45] : List BusAddr) := by
  decide
/-- SS3. -/
theorem test_checkComms : (obs (exec .checkComms (st .addressed (some 0x44) (read2 0x54 0x49)))).map
    (fun o => (o.sess, o.responses)) = some (.verified, [⟨.ok, .none⟩]) := by decide
/-- SS5: another identity drops `Configured`. -/
theorem test_checkComms_bad : (obs (exec .checkComms (st .configured (some 0x44) (read2 0x30 0x01)))).map
    (fun o => (o.sess, o.responses)) = some (.addressed, [⟨.identityMismatch, .none⟩]) := by decide
/-- SS9. -/
theorem test_applyConfig :
    obs (exec .applyConfig { st .verified (some 0x44) (write1 0) with softCfg := 0xCC10 }) =
      some ⟨.configured, some 0x44, 0xCC10, [⟨.ok, .none⟩],
        [.beginTxn 0x44, .write [0x01, 0xCC, 0x10], .endTxn 0]⟩ := by decide
/-- SS10. -/
theorem test_applyConfig_refused : (obs (exec .applyConfig (st .configured (some 0x44) (write1 3)))).map
    (fun o => (o.sess, o.responses)) = some (.verified, [⟨.commError, .none⟩]) := by decide
/-- SS13, with P1's configuration write. -/
theorem test_beginSession :
    obs (exec (.beginSession 0x44) { st .unstarted none (read2 0x54 0x49 ++ write1 0) with softCfg := 0xCC10 }) =
      some ⟨.configured, some 0x44, 0xCC10, [⟨.ok, .none⟩],
        [.beginTxn 0x44, .write [0x7E], .endTxn 0, .request 0x44 2, .avail 2, .readByte 0x54, .avail 1,
          .readByte 0x49, .beginTxn 0x44, .write [0x01, 0xCC, 0x10], .endTxn 0]⟩ := by decide
/-- P2's first command: no configuration write (property 4). -/
theorem test_beginSession_bad :
    obs (exec (.beginSession 0x05) (st .unstarted none (read2 0x30 0x01))) =
      some ⟨.addressed, some 0x45, 0xC810, [⟨.identityMismatch, .none⟩],
        [.beginTxn 0x45, .write [0x7E], .endTxn 0, .request 0x45 2, .avail 2, .readByte 0x30, .avail 1,
          .readByte 0x01]⟩ := by decide
/-- SC1, SC3, SC5 and SC7. -/
theorem test_setConfig :
    updateCfg 0xC810 0x300 { zeros with m := 2, ct := 1 } = 0xCC10 ∧
    updateCfg 0xC810 0x7FF { zeros with m := 3 } = 0x0600 ∧ updateCfg 0xFFFF 0x400 zeros = 0x0FFF ∧
    updateCfg 0x1234 0xF800 { zeros with rn := 5 } = 0x1234 := by decide
/-- SC8 and SC9: bit 2 of `sel` is POL, bit 1 is ME. -/
theorem test_setConfig_step :
    (obs (exec (.setConfig 0x004 { zeros with me := 2 }) { st .unstarted none [] with softCfg := 0xFFFF })).map
      (fun o => o.softCfg) = some 0xFFF7 ∧
    (obs (exec (.setConfig 0x002 { zeros with me := 2 }) { st .unstarted none [] with softCfg := 0xFFFF })).map
      (fun o => o.softCfg) = some 0xFFFB := by decide
/-- SS18. -/
theorem test_readConfig : payloads (exec .readConfig (st .addressed (some 0x44) (read2 0xC8 0x90))) =
    [.config ⟨0, 0, 0, 1, 0, 0, 1, 0, 0, 1, 12⟩] := by decide
/-- SS19. -/
theorem test_getIlluminance : payloads (exec .getIlluminance (st .addressed (some 0x44) (read2 0xF0 0x01))) =
    [.lux (196608 / 5) 32768] := by decide +kernel
/-- SS20; the pointer is 0x03. -/
theorem test_getHighLimit :
    obs (exec .getHighLimit (st .addressed (some 0x44) (read2 0xBF 0xFF))) =
      some ⟨.addressed, some 0x44, 0xC810, [⟨.ok, .result 4095 11⟩],
        [.beginTxn 0x44, .write [0x03], .endTxn 0, .request 0x44 2, .avail 2, .readByte 0xBF, .avail 1,
          .readByte 0xFF]⟩ := by decide
/-- P3, step 3: the low byte is the draw `d`. -/
theorem test_getLowLimit_short :
    payloads (exec .getLowLimit (st .configured (some 0x47)
      [void, void, endA 0, void, availA 1, byteA 0x32, availA 0])) =
      [unpackRes (Word.ofBytes 0x32 (Config.freeByte 1))] := by
  rw [← trunc_of_le (Nat.le_refl 16) (Word.ofBytes 0x32 (Config.freeByte 1))]
  rfl
/-- P3, step 1. -/
theorem test_setHighLimit : obs (exec (.setHighLimit 0xFFF 11) (st .configured (some 0x47) (write1 0))) =
    some ⟨.configured, some 0x47, 0xC810, [⟨.ok, .none⟩],
      [.beginTxn 0x47, .write [0x03, 0xBF, 0xFF], .endTxn 0]⟩ := by decide
/-- SS21. -/
theorem test_setLowLimit : obs (exec (.setLowLimit 0 12) (st .addressed (some 0x44) (write1 0))) =
    some ⟨.addressed, some 0x44, 0xC810, [⟨.ok, .none⟩],
      [.beginTxn 0x44, .write [0x02, 0xC0, 0x00], .endTxn 0]⟩ := by decide

/-! ## Other widths than R5's (hand calculation by R6's `trunc`; log 2) -/

/-- A 4-bit pointer byte, a 6-bit bus address, a 12-bit register: 0x7E, 0x45 and 0x3234 lose their high bits. -/
theorem test_widths_on_the_bus :
    (obs (exec (.writeRegister 0x7E [0x12]) { st .addressed (some 0x44) (write1 0) with
      params := { params with ptrWidth := 4 } })).map (fun o => o.hist) =
        some [.beginTxn 0x44, .write [0x0E, 0x12], .endTxn 0] ∧
    (obs (exec (.setAddress 0x45) (State.resetWith { params with busAddrWidth := 6 }))).map
      (fun o => o.devAddr) = some (some 0x05) ∧
    payloads (exec (.encodeResult 0x234 3) (State.resetWith { params with regWidth := 12 })) =
      [.wire 0x02 0x34] ∧
    payloads (exec (.decodeResult 0x32 0x34) (State.resetWith { params with regWidth := 12 })) =
      [.result 0x234 0] := by decide
/-- A 2-bit field input: `rn = 0xC + 3` gives the range code 3. -/
theorem test_widths_of_inputs :
    (obs (exec (.setConfig 0x400 { zeros with rn := 0x0F }) (State.resetWith { params with
      fieldInWidth := 2 }))).map (fun o => o.softCfg) = some 0x3810 ∧
    payloads (exec (.encodeResult 0xFFF 0xF) (State.resetWith { params with fieldInWidth := 2 })) =
      [.wire 0x30 0x03] := by decide

/-! ## The step -/

/-- P5: `06` is refused, and then nothing runs. -/
theorem test_step_refuses :
    step { st .unstarted none [] with port := [[0x06], [0x26]] } =
      .next { st .unstarted none [] with port := [[0x06], [0x26]], refused := true } ∧
    step { st .unstarted none [] with port := [[0x06], [0x26]], refused := true } = .refused .marked :=
  ⟨rfl, rfl⟩
/-- SS22. -/
theorem test_step_faults :
    step { st .unstarted none [] with port := [[0x29]] } =
      .next { st .unstarted none [] with fault := some .usedBeforeAddressed } := by rfl
/-- From reset, the first command presented runs first. -/
theorem test_withFetchWord :
    obs (step ((State.resetWith params).withFetchWord 16 0x7E20)) =
      some ⟨.addressed, some 0x46, 0xC810, [⟨.ok, .none⟩], []⟩ := by decide

/-! ## Witnesses: states and operands that meet the hypotheses of each obligation

Named after the obligation; one part per clause, with the boundary values of its range. -/

/-- A state with one presented command that is ready to be taken. -/
def ready (port : List (List Byte)) (script : List Answer) : State :=
  { st .addressed (some 0x44) script with port := port }

theorem ready_ready (port : List (List Byte)) (script : List Answer) : (ready port script).Ready :=
  ⟨⟨rfl, rfl⟩, rfl⟩

theorem ready_inv (port : List (List Byte)) (script : List Answer) : (ready port script).Inv :=
  ⟨by simp [ready, st],
    fun a h => by cases h; exact ⟨0x44, (by decide : (0x44 : BusAddr) = normAddr params 0x44)⟩,
    fun _ a h => by cases h; exact .inl rfl, rfl⟩

theorem witness_StepKeepsSessionInvariant :
    ∃ t, (ready [[0x21]] (read2 0x54 0x49)).Inv ∧ step (ready [[0x21]] (read2 0x54 0x49)) = .next t ∧
      t.sess = .verified := ⟨_, ready_inv _ _, rfl, rfl⟩
theorem witness_EveryRunKeepsSessionInvariant :
    ∃ t, core.run 2 { State.resetWith params with
      port := [[0x23, 0x44], [0x22]], script := read2 0x54 0x49 ++ write1 0 ++ write1 0 } = .next t ∧
      t.sess = .configured ∧ t.calls = 14 := ⟨_, rfl, rfl, rfl⟩
theorem witness_DecodeOfEncodeIsIdentity :
    Instr.WellFormed (.writeRegister 0xFF (List.replicate 255 0xAA)) params ∧
    Instr.WellFormed (.writeRegister 0x00 []) params ∧ Instr.WellFormed (.setConfig 0xFFFF zeros) params ∧
    Instr.WellFormed (.readRegister 0x00 4) { params with maxXferLen := 4 } := by decide +kernel
theorem witness_DecodeReadsOnlyEncodings :
    decode [0x10, 0x02, 0x01, 0xC0, 0x26] = .ok (.writeRegister 0x02 [0xC0], [0x26]) ∧
    params.maxXferLen = 255 := ⟨rfl, rfl⟩
theorem witness_DecoderRefusesExactlyUnassignedAndShort :
    (∀ f, ((0x06 : Byte), f) ∉ opcodeMap) ∧ ((0x10 : Byte), Format.WR) ∈ opcodeMap ∧
    [0x10, 0x02, 0x01].length < Format.serialLength .WR 1 ∧
    ¬ [0x10, 0x02, 0x01, 0xC0].length < Format.serialLength .WR 1 :=
  ⟨fun f => by cases f <;> decide, by decide, by decide, by decide⟩
theorem witness_StepRunsPresentedCommand :
    (ready [[0x20, 0x45]] []).Ready ∧ decode [0x20, 0x45] = .ok (.setAddress 0x45, []) ∧
    (ready [[0x20, 0x45, 0x21]] []).Ready ∧ decode [0x20, 0x45, 0x21] = .ok (.setAddress 0x45, [0x21]) :=
  ⟨ready_ready _ _, rfl, ready_ready _ _, rfl⟩
theorem witness_StepIdlesWithoutCommand : (ready [] []).Unmarked ∧ (ready [] []).port = [] :=
  ⟨⟨rfl, rfl⟩, rfl⟩
theorem witness_RefusalSetsMarkAndStops :
    (ready [[0x06], [0x26]] []).Ready ∧ decode [0x06] = .error (.unassignedOpcode 0x06) ∧
    (ready [[0x23]] []).Ready ∧ decode [0x23] = .error .truncated :=
  ⟨ready_ready _ _, rfl, ready_ready _ _, rfl⟩
theorem witness_UnaddressedCommandFaultsAndStops :
    State.Ready { State.reset with port := [[0x26]] } ∧ decode [0x26] = .ok (.getIlluminance, []) ∧
    NeedsAddress .getIlluminance = true ∧ State.reset.devAddr = none := ⟨⟨⟨rfl, rfl⟩, rfl⟩, rfl, rfl, rfl⟩
theorem witness_CommandWhileBusyHasNoMove :
    State.Unmarked { ready [[0x26]] [] with busy := true } := ⟨rfl, rfl⟩
theorem witness_FetchWordRunsTableCommand :
    State.reset.Ready ∧ decodeTableWord 8 0x24 = some (.setConfig 0 zeros) := ⟨⟨⟨rfl, rfl⟩, rfl⟩, by decide⟩
theorem witness_EveryCommandHasAMove : NeedsAddress .getLowLimit = true ∧ State.reset.devAddr = none :=
  ⟨rfl, rfl⟩
theorem witness_CodecIsPure : IsCodec (.decodeResult 0x32 0x34) = true ∧
    (st .unstarted none []).params = (st .configured (some 0x47) (write1 3)).params := ⟨rfl, rfl⟩
theorem witness_ConfigRoundTripOnTheBus :
    (st .unstarted none []).params = (st .verified (some 0x44) []).params ∧ 16 ≤ params.regWidth ∧
    4 ≤ params.fieldInWidth := ⟨rfl, by decide, by decide⟩
theorem witness_WireOrderRoundTrips : 16 ≤ params.regWidth := by decide
theorem witness_SetAddressNormalises : Params.SpecAddr params ∧ Params.SpecAddr State.reset.params :=
  ⟨⟨rfl, rfl, rfl⟩, rfl, rfl, rfl⟩

/-- A written register: the vectors RA1, RA4 and RA2. -/
theorem witness_WriteRegisterCompletes : (st .addressed (some 0x44) (write1 0)).devAddr = some 0x44 ∧
    (st .addressed (some 0x44) (write1 0)).Closes 0 := by
  unfold State.Closes State.Returns; decide
theorem witness_WriteRegisterFailures :
    (¬ (st .addressed (some 0x44) [exc]).Returns 0) ∧
    (let s := st .addressed (some 0x44) [void, exc]; s.Returns 0 ∧ ¬ s.Returns 1) ∧
    (let s := st .addressed (some 0x44) [void, void, exc]; s.Returns 0 ∧ s.Returns 1 ∧ ¬ s.Returns 2) ∧
    (let s := st .addressed (some 0x44) (write1 2);
      s.Returns 0 ∧ s.Returns 1 ∧ s.Returns 2 ∧ (s.answer 2).status ≠ 0) := by
  unfold State.Returns; decide
/-- A long read: `m` answers that count one byte available and carry a byte. -/
def long (m : Nat) (tail : List Answer) : State :=
  st .addressed (some 0x44) ([void, void, endA 0, void] ++ (List.replicate m (availA 1) ++ tail))

theorem long_answer {m j : Nat} {tail : List Answer} (h : j < m) : (long m tail).answer (4 + j) = availA 1 := by
  have h2 : 4 + j = j + 1 + 1 + 1 + 1 := by omega
  rw [h2]
  simp [State.answer, long, st, List.getD_eq_getElem?_getD, List.getElem?_append_left, h]

theorem long_answer_tail (m : Nat) (a : Answer) (tail : List Answer) :
    (long m (a :: tail)).answer (4 + m) = a := by
  rw [show 4 + m = m + 1 + 1 + 1 + 1 by omega]
  simp [State.answer, long, st, List.getD_eq_getElem?_getD]

theorem long_delivers {m n : Nat} {tail : List Answer} (h : 2 * n ≤ m) : (long m tail).Delivers 4 n := by
  intro i hi
  have h1 := long_answer (tail := tail) (show 2 * i < m by omega)
  have h2 := long_answer (tail := tail) (show 2 * i + 1 < m by omega)
  rw [State.Returns, State.Returns, h1, show 4 + 2 * i + 1 = 4 + (2 * i + 1) by omega, h2]
  exact ⟨rfl, by decide, rfl⟩

/-- Lengths 0, 2 and 255. -/
theorem witness_ReadRegisterCompletes :
    (st .addressed (some 0x44) [void, void, endA 0, void]).Reads 0 (0x00 : Byte).toNat ∧
    (st .addressed (some 0x45) (read2 0x30 0x01)).Reads 0 (0x02 : Byte).toNat ∧
    (long 510 []).Reads 0 (0xFF : Byte).toNat := by
  refine ⟨?_, ?_, ?_⟩
  · simp only [State.Reads, State.Closes, State.Returns, State.Delivers]; decide
  · simp only [State.Reads, State.Closes, State.Returns, State.Delivers]; decide
  · exact ⟨⟨rfl, rfl, rfl, rfl⟩, rfl, long_delivers (by decide)⟩
/-- RA10 (no byte), RA8 (one of two), and 254 of 255 bytes, under both policies. -/
theorem witness_ReadRegisterShortRead :
    (let s := st .addressed (some 0x44) [void, void, endA 0, void, availA 0];
      0 < (0x02 : Byte).toNat ∧ s.Closes 0 ∧ s.Returns 3 ∧ s.Delivers 4 0 ∧ s.Returns 4 ∧
        (s.answer 4).avail = 0 ∧ s.params.shortReadPolicy = .tolerate) ∧
    (let s := { st .addressed (some 0x44) [void, void, endA 0, void, availA 1, byteA 0xAB, availA 0] with
        params := { params with shortReadPolicy := .commError } };
      1 < (0x02 : Byte).toNat ∧ s.Closes 0 ∧ s.Returns 3 ∧ s.Delivers 4 1 ∧ s.Returns 6 ∧
        (s.answer 6).avail = 0 ∧ s.params.shortReadPolicy = .commError) ∧
    (254 < (0xFF : Byte).toNat ∧ (long 508 [availA 0]).Closes 0 ∧ (long 508 [availA 0]).Returns 3 ∧
      (long 508 [availA 0]).Delivers 4 254 ∧ (long 508 [availA 0]).Returns 512 ∧
      ((long 508 [availA 0]).answer 512).avail = 0) := by
  have h : (long 508 [availA 0]).answer 512 = availA 0 := long_answer_tail 508 _ []
  refine ⟨?_, ?_, by decide, ⟨rfl, rfl, rfl, rfl⟩, rfl, long_delivers (by decide),
    congrArg Answer.exc h, congrArg Answer.avail h⟩
  · simp only [State.Closes, State.Returns, State.Delivers]; decide
  · simp only [State.Closes, State.Returns, State.Delivers]; decide
/-- The request, an Avail and a ReadByte raise (RA12). -/
theorem witness_ReadRegisterExceptions :
    (let s := st .addressed (some 0x44) [void, void, endA 0, exc]; s.Closes 0 ∧ ¬ s.Returns 3) ∧
    (let s := st .addressed (some 0x44) [void, void, endA 0, void, exc];
      0 < (0x01 : Byte).toNat ∧ s.Closes 0 ∧ s.Returns 3 ∧ s.Delivers 4 0 ∧ ¬ s.Returns 4) ∧
    (let s := st .addressed (some 0x44) [void, void, endA 0, void, availA 2, byteA 0x11, availA 1, exc];
      1 < (0x02 : Byte).toNat ∧ s.Closes 0 ∧ s.Returns 3 ∧ s.Delivers 4 1 ∧ s.Returns 6 ∧
        (s.answer 6).avail ≠ 0 ∧ ¬ s.Returns 7) := by
  simp only [State.Closes, State.Returns, State.Delivers]
  decide
/-- RA5, and SS15 for BEGIN, which needs no address. -/
theorem witness_AddressPhaseFailureStopsRead :
    (let s := st .addressed (some 0x44) (write1 1);
      s.devAddr = some 0x44 ∧ s.Returns 0 ∧ s.Returns 1 ∧ s.Returns 2 ∧ (s.answer 2).status ≠ 0) ∧
    (let s := st .unstarted none (write1 1);
      s.Returns 0 ∧ s.Returns 1 ∧ s.Returns 2 ∧ (s.answer 2).status ≠ 0) := by
  unfold State.Returns; decide
/-- SS3 and SS6. -/
theorem witness_CheckCommsVerifies :
    (let s := st .addressed (some 0x44) (read2 0x54 0x49);
      s.devAddr = some 0x44 ∧ s.Reads 0 2 ∧ s.wordFrom 0 = s.params.mfrIdExpected) ∧
    (let s := st .configured (some 0x44) (read2 0x54 0x49);
      s.devAddr = some 0x44 ∧ s.Reads 0 2 ∧ s.wordFrom 0 = s.params.mfrIdExpected) := by
  simp only [State.Reads, State.Closes, State.Returns, State.Delivers]
  decide
/-- SS4. -/
theorem witness_CheckCommsRejectsOtherIdentity :
    let s := st .addressed (some 0x44) (read2 0x30 0x01);
    s.devAddr = some 0x44 ∧ s.Reads 0 2 ∧ s.wordFrom 0 ≠ s.params.mfrIdExpected := by
  simp only [State.Reads, State.Closes, State.Returns, State.Delivers]
  decide
/-- SS9, SS11. -/
theorem witness_ApplyConfigPushesSoftConfig :
    (st .verified (some 0x44) (write1 0)).Closes 0 ∧ (st .addressed (some 0x44) (write1 0)).Closes 0 := by
  unfold State.Closes State.Returns; decide
/-- The answers of a transaction that breaks, in each of its four ways. -/
def breaking : List (List Answer) := [[exc], [void, exc], [void, void, exc], write1 3]

/-- Its events, in each. -/
def broken (a : BusAddr) (bs : List Byte) : List (List Event) :=
  [[.exc .beginTxn], [.beginTxn a, .exc .write], [.beginTxn a, .write bs, .exc .endTxn],
    [.beginTxn a, .write bs, .endTxn 3]]

/-- SS10, and an exception at each call. -/
theorem witness_ApplyConfigFailureDropsConfigured : ∀ x ∈ breaking.zip (broken 0x44 [0x01, 0xC8, 0x10]),
    (st .configured (some 0x44) x.1).WriteBreaks 0 0x44 [0x01, 0xC8, 0x10] x.2 := by
  unfold State.WriteBreaks State.Returns
  decide
/-- SS13. -/
theorem witness_BeginConfigures :
    let s := st .unstarted none (read2 0x54 0x49 ++ write1 0);
    s.Reads 0 2 ∧ s.wordFrom 0 = s.params.mfrIdExpected ∧ s.Closes 8 := by
  simp only [State.Reads, State.Closes, State.Returns, State.Delivers]
  decide
/-- SS14. -/
theorem witness_BeginStopsAtOtherIdentity :
    let s := st .unstarted none (read2 0x30 0x01);
    s.Reads 0 2 ∧ s.wordFrom 0 ≠ s.params.mfrIdExpected := by
  simp only [State.Reads, State.Closes, State.Returns, State.Delivers]
  decide
/-- The loop of a two-byte read that breaks, each way, the last under `commError`. -/
theorem witness_LoopBreaks :
    (st .unstarted none (write1 0 ++ [void, exc])).LoopBreaks 4 2 [.exc .avail] ∧
    (st .unstarted none (write1 0 ++ [void, availA 2, byteA 0x54, availA 1, exc])).LoopBreaks 4 2
      [.avail 2, .readByte 0x54, .avail 1, .exc .readByte] ∧
    State.LoopBreaks { st .unstarted none (write1 0 ++ [void, availA 2, byteA 0x54, availA 0]) with
      params := { params with shortReadPolicy := .commError } } 4 2 [.avail 2, .readByte 0x54, .avail 0] := by
  refine ⟨⟨0, by decide, ?_⟩, ⟨1, by decide, ?_⟩, ⟨1, by decide, ?_⟩⟩ <;>
  · simp only [State.Returns, State.Delivers]
    decide
/-- SS16 and SS15 with an exception at each call of the two transactions, one at the request, and each break of the
loop. -/
theorem witness_BeginTransportFailures :
    (∀ x ∈ breaking.zip (broken 0x44 [0x7E]), (st .unstarted none x.1).ReadBreaks 0 0x44 0x7E 2 x.2 0) ∧
    (st .unstarted none (write1 0 ++ [exc])).ReadBreaks 0 0x44 0x7E 2
      [.beginTxn 0x44, .write [0x7E], .endTxn 0, .exc .request] 0 ∧
    (∀ s evs, s = st .unstarted none (write1 0 ++ [void, exc]) ∧ evs = [Event.exc .avail] ∨
        s = st .unstarted none (write1 0 ++ [void, availA 2, byteA 0x54, availA 1, exc]) ∧
          evs = [.avail 2, .readByte 0x54, .avail 1, .exc .readByte] →
      s.ReadBreaks 0 0x44 0x7E 2 ([.beginTxn 0x44, .write [0x7E], .endTxn 0, .request 0x44 2] ++ evs) 2) ∧
    ∀ x ∈ breaking.zip (broken 0x44 [0x01, 0xC8, 0x10]),
      let s := st .unstarted none (read2 0x54 0x49 ++ x.1);
      s.Reads 0 2 ∧ s.wordFrom 0 = s.params.mfrIdExpected ∧ s.WriteBreaks 8 0x44 [0x01, 0xC8, 0x10] x.2 := by
  refine ⟨fun x hx => .inl ⟨?_, rfl⟩, .inr (.inl ?_), ?_, ?_⟩
  · revert x
    unfold State.WriteBreaks State.Returns
    decide
  · unfold State.Closes State.Returns
    decide
  · rintro s evs (⟨rfl, rfl⟩ | ⟨rfl, rfl⟩)
    · exact .inr (.inr ⟨⟨rfl, rfl, rfl, rfl⟩, rfl, rfl, _, witness_LoopBreaks.1, rfl⟩)
    · exact .inr (.inr ⟨⟨rfl, rfl, rfl, rfl⟩, rfl, rfl, _, witness_LoopBreaks.2.1, rfl⟩)
  · simp only [State.Reads, State.Closes, State.WriteBreaks, State.Returns, State.Delivers]
    decide
/-- Both ways the sequence can go: CHECK_COMMS returned OK, and it did not. -/
theorem witness_BeginEqualsCommandSequence :
    (∃ t, exec (.beginSession 0x44) (st .unstarted none (read2 0x54 0x49 ++ write1 0)) = .next t ∧
      t.lastStatus = some .ok) ∧
    ∃ t, exec (.beginSession 0x05) (st .unstarted none (read2 0x30 0x01)) = .next t ∧
      t.lastStatus = some .identityMismatch := ⟨⟨_, rfl, rfl⟩, _, rfl, rfl⟩
/-- SS18 to SS20: the hypotheses of ReadConfigReturnsDeviceFields, GetIlluminanceReadsResult and
LimitGettersReadTheirRegister. -/
theorem witness_session_getters :
    let s := st .addressed (some 0x44) (read2 0xC8 0x90);
    s.devAddr = some 0x44 ∧ s.Reads 0 2 := by
  simp only [State.Reads, State.Closes, State.Returns, State.Delivers]
  decide
/-- SS21. -/
theorem witness_LimitSettersWriteTheirRegister :
    let s := st .addressed (some 0x44) (write1 0);
    s.devAddr = some 0x44 ∧ s.Closes 0 := by
  unfold State.Closes State.Returns; decide
/-- SS8: the answers of a read that stops after `i` bytes. -/
def short : Nat → List Answer
  | 0 => [void, void, endA 0, void, availA 0]
  | _ => [void, void, endA 0, void, availA 1, byteA 0x54, availA 0]

/-- The word such a read assembles. -/
def shortWord (i : Nat) : Word :=
  wireWord params (if i = 0 then Config.freeByte 0 else 0x54) (Config.freeByte 1)

/-- The parameters under which that word is the expected identity, or is not. -/
def expecting (w : Word) (policy : ShortReadPolicy) : Params :=
  { params with mfrIdExpected := w, shortReadPolicy := policy }

/-- After 0 bytes and after 1, with an address and without one, under either policy. -/
theorem witness_SessionGetterShortRead : ∀ i < 2, ∀ a ∈ [none, some 0x44], ∀ w policy,
    let s := { st .addressed a (short i) with params := expecting w policy };
    s.Closes 0 ∧ s.Returns 3 ∧ s.Delivers 4 i ∧ s.Returns (4 + 2 * i) ∧ (s.answer (4 + 2 * i)).avail = 0 ∧
      s.params.shortReadPolicy = policy := by
  intro i hi a ha w policy
  obtain rfl | rfl : i = 0 ∨ i = 1 := by omega
  all_goals
    refine ⟨⟨rfl, rfl, rfl, rfl⟩, rfl, ?_, rfl, rfl, rfl⟩
    intro j hj
    obtain rfl : j = 0 := by omega
    first | omega | exact ⟨rfl, Nat.one_ne_zero, rfl⟩
/-- The word may be the expected identity, and another one, whatever the draws are; the configuration write of BEGIN
may then go through, and fail each way. -/
theorem witness_SessionGetterShortRead_identity : ∀ i < 2,
    (let s := { st .addressed (some 0x44) (short i ++ write1 0) with params := expecting (shortWord i) .tolerate };
      shortWord i = s.params.mfrIdExpected ∧ s.Closes (5 + 2 * i)) ∧
    (let s := { st .addressed (some 0x44) (short i) with params := expecting (~~~ shortWord i) .tolerate };
      shortWord i ≠ s.params.mfrIdExpected) ∧
    ∀ x ∈ breaking.zip (broken 0x44 [0x01, 0xC8, 0x10]),
      let s := { st .addressed (some 0x44) (short i ++ x.1) with params := expecting (shortWord i) .tolerate };
      s.WriteBreaks (5 + 2 * i) 0x44 [0x01, 0xC8, 0x10] x.2 := by
  intro i hi
  refine ⟨⟨rfl, ?_⟩, ?_, ?_⟩
  · obtain rfl | rfl : i = 0 ∨ i = 1 := by omega
    all_goals exact ⟨rfl, rfl, rfl, rfl⟩
  · intro s h
    have := congrArg (fun w : Word => w.getLsbD 0) h
    simp [s, expecting] at this
  · obtain rfl | rfl : i = 0 ∨ i = 1 := by omega
    all_goals
      unfold State.WriteBreaks State.Returns
      simp only [State.answer, State.writeEvents]
      decide
/-- With an address, and without one. -/
theorem witness_FramePlainAccessCommands :
    (∃ t, IsPlainAccess .readConfig = true ∧
      exec .readConfig (st .addressed (some 0x44) (read2 0xC8 0x90)) = .next t ∧ t.calls = 8) ∧
    ∃ t, exec .readConfig (st .unstarted none []) = .next t ∧ t.fault = some .usedBeforeAddressed :=
  ⟨⟨_, rfl, rfl, rfl⟩, _, rfl, rfl⟩
theorem witness_FrameVerifyAndApply :
    (∃ t, exec .checkComms (st .addressed (some 0x44) (read2 0x54 0x49)) = .next t ∧ t.sess = .verified) ∧
    ∃ t, exec .applyConfig (st .unstarted none []) = .next t ∧ t.fault = some .usedBeforeAddressed :=
  ⟨⟨_, rfl, rfl⟩, _, rfl, rfl⟩
theorem witness_FrameAddressAndBegin :
    (∃ t, exec (.setAddress 0x7E) (st .configured (some 0x44) []) = .next t ∧ t.devAddr = some 0x46) ∧
    ∃ t, exec (.beginSession 0x44) (st .unstarted none (write1 1)) = .next t ∧ t.devAddr = some 0x44 :=
  ⟨⟨_, rfl, rfl⟩, _, rfl, rfl⟩
theorem witness_ParametersNeverChange :
    ∃ t, step (ready [[0x21]] (read2 0x54 0x49)) = .next t ∧ t.hist.length = 8 := ⟨_, rfl, rfl⟩
theorem witness_OnlySetConfigWritesSoftCfg :
    ∃ t, exec (.setConfig 0x7FF zeros) (st .unstarted none []) = .next t ∧ t.softCfg ≠ 0xC810 :=
  ⟨_, rfl, by decide⟩
theorem witness_OnlyAddressingWritesDevAddr :
    ∃ t, exec (.setAddress 0x45) (st .unstarted none []) = .next t ∧ t.devAddr ≠ none :=
  ⟨_, rfl, by decide⟩
/-- Both clauses: a fault, and a move of the table. -/
theorem witness_SessionMovesFollowTable :
    (∃ t, exec .applyConfig (st .unstarted none []) = .next t ∧ t.sess = .unstarted) ∧
    ∃ t, exec .applyConfig (st .verified (some 0x44) (write1 0)) = .next t ∧ t.sess = .configured :=
  ⟨⟨_, rfl, rfl⟩, _, rfl, rfl⟩
/-- SS15 and SS16: the two CommError rows of BEGIN. -/
theorem witness_SessionMovesFollowTable_begin :
    (∃ t, exec (.beginSession 0x44) (st .configured (some 0x44) (write1 1)) = .next t ∧
      t.lastStatus = some .commError ∧ t.hist.countP Event.triesBegin = 1 ∧ t.sess = .addressed) ∧
    ∃ t, exec (.beginSession 0x44) (st .configured (some 0x44) (read2 0x54 0x49 ++ [exc])) = .next t ∧
      t.lastStatus = some .commError ∧ t.hist.countP Event.triesBegin = 2 ∧ t.sess = .verified :=
  ⟨⟨_, rfl, rfl, rfl, rfl⟩, _, rfl, rfl, rfl, rfl⟩
/-- Each status: OK, COMM_ERROR, IDENTITY_MISMATCH. -/
theorem witness_OneResponsePerCommand :
    (∃ t, exec .checkComms (st .addressed (some 0x44) (read2 0x54 0x49)) = .next t ∧ t.lastStatus = some .ok) ∧
    (∃ t, exec .checkComms (st .addressed (some 0x44) (write1 4)) = .next t ∧
      t.lastStatus = some .commError) ∧
    ∃ t, exec .checkComms (st .addressed (some 0x44) (read2 0x30 0x01)) = .next t ∧
      t.lastStatus = some .identityMismatch := ⟨⟨_, rfl, rfl⟩, ⟨_, rfl, rfl⟩, _, rfl, rfl⟩
theorem witness_HistoryRecordsEveryCall :
    ∃ t, exec .getIlluminance (st .addressed (some 0x44) (read2 0x20 0x64)) = .next t ∧ t.hist.length = 8 :=
  ⟨_, rfl, rfl⟩
/-- A failing call, and none; under `commError` an exception, and a short read. -/
theorem witness_CommErrorExactlyOnFailedCall :
    (∃ t, exec (.readRegister 0x00 2) (st .addressed (some 0x44) (write1 1)) = .next t ∧
      t.lastStatus = some .commError) ∧
    (∃ t, exec (.readRegister 0x7F 2) (st .addressed (some 0x45) (read2 0x30 0x01)) = .next t ∧
      t.lastStatus = some .ok) ∧
    ∀ script ∈ [[exc], short 1], ∃ t, exec .getIlluminance { st .addressed (some 0x44) script with
        params := { params with shortReadPolicy := .commError } } = .next t ∧
      t.lastStatus = some .commError := by
  refine ⟨⟨_, rfl, rfl⟩, ⟨_, rfl, rfl⟩, fun script h => ?_⟩
  obtain rfl | rfl : script = [exc] ∨ script = short 1 := by simpa using h
  all_goals exact ⟨_, rfl, rfl⟩
/-- BEGIN's two transactions; an exception counts as a call; a command that makes no call, and one that writes. -/
theorem witness_NoRetriesNoReadAhead :
    (∃ t, exec (.beginSession 0x44) (st .unstarted none (read2 0x54 0x49 ++ write1 0)) = .next t ∧
      t.hist.countP Event.triesBegin = 2) ∧
    (∃ t, exec .checkComms (st .addressed (some 0x44) [exc]) = .next t ∧
      t.hist.countP Event.triesBegin = 1) ∧
    (∃ t, exec .checkComms (st .addressed (some 0x44) (write1 0 ++ [exc])) = .next t ∧
      t.hist.countP Event.triesRequest = 1) ∧
    (∃ t, exec (.setConfig 0x7FF zeros) (st .addressed (some 0x44) []) = .next t ∧
      maxBegins (.setConfig 0x7FF zeros) = 0) ∧
    ∃ t, exec (.setLowLimit 0 12) (st .addressed (some 0x44) (write1 0)) = .next t ∧
      t.hist.countP Event.triesBegin = 1 ∧ maxRequests (.setLowLimit 0 12) = 0 :=
  ⟨⟨_, rfl, rfl⟩, ⟨_, rfl, rfl⟩, ⟨_, rfl, rfl⟩, ⟨_, rfl, rfl⟩, _, rfl, rfl, rfl⟩
theorem witness_SessionStateGatesNothing :
    ∃ t t', exec .applyConfig (st .verified (some 0x44) (write1 0)) = .next t ∧
      exec .applyConfig { st .verified (some 0x44) (write1 0) with sess := .unstarted } = .next t' ∧
      t.sess ≠ t'.sess := ⟨_, _, rfl, rfl, by decide⟩
/-- An address, no response, and a newest response. -/
theorem witness_StatusPortShowsRegisters : (st .addressed (some 0x46) []).devAddr = some 0x46 ∧
    (st .addressed (some 0x46) []).responses = [] ∧
    ((st .addressed (some 0x46) []).returnWith ⟨.identityMismatch, .none⟩).responses.getLast? =
      some ⟨.identityMismatch, .none⟩ := ⟨rfl, rfl, rfl⟩

end Sys2Proof.Tests
end

section
/-! The spec's parameter values (00_scope.md R5) and what its widths mean for pointers and field inputs. -/
namespace Sys2Proof.Machine

@[simp] theorem State.reset_params : State.reset.params = Config.specParams := rfl

/-- R34's address parameters are among R5's values. -/
theorem specParams_specAddr : Params.SpecAddr Config.specParams := ⟨rfl, rfl, rfl⟩

/-- A field-input width that holds a 16-bit operand loses nothing of it (R61, D15). -/
theorem inputValue_of_le {p : Params} (h : 16 ≤ p.fieldInWidth) (v : Word) : inputValue p v = v.toNat := by
  rw [← fieldInput_toNat, fieldInput, trunc_of_le h]

/-- Settles O2: each value is read off `Config.specParams`; `PTR_WIDTH` 8 and `FIELD_IN_WIDTH` 16 are as wide as the
pointers and field inputs they truncate. -/
theorem resetUsesSpecParameters : Obligations.ResetUsesSpecParameters := by
  unfold Obligations.ResetUsesSpecParameters
  rw [State.reset_params]
  have hptr : 8 ≤ Config.specParams.ptrWidth := Nat.le_refl 8
  have hinput : 16 ≤ Config.specParams.fieldInWidth := Nat.le_refl 16
  exact ⟨specParams_specAddr, rfl, rfl, rfl, rfl, rfl, rfl, rfl, rfl, rfl, rfl,
    ptrByte_of_le hptr, inputValue_of_le hinput⟩

end Sys2Proof.Machine
end

section
/-! Who writes the block's registers `soft_cfg` and `dev_addr` (10_state.md R13, R15): read off the inversion lemma
`exec_cases`, for a command that runs and for one that meets the model fault. -/
namespace Sys2Proof.Machine

/-! ## The registers a command that ran leaves -/

section
variable {i : Instr} {s t : State} {a : Option BusAddr} {evs : List Event} {d : Nat} {v : SessState} {w : Word}
  {res : Response}

theorem Ran.softCfg_eq (h : Ran i s t a evs d v w res) : t.softCfg = w := by
  rw [h.state, State.returnWith_softCfg, State.setSoftCfg_softCfg]

theorem Ran.devAddr_eq (h : Ran i s t a evs d v w res) : t.devAddr = a := by
  rw [h.state, State.returnWith_devAddr, State.setSoftCfg_devAddr, State.setSess_devAddr, State.takeDraws_devAddr]

end

/-! ## Each register is kept, or its own commands write it -/

/-- R15; the model fault of R95 keeps `soft_cfg` too. -/
theorem exec_softCfg {i : Instr} {s t : State} (he : exec i s = .next t) :
    t.softCfg = s.softCfg ∨ ∃ sel f, i = .setConfig sel f := by
  obtain ⟨-, -, rfl⟩ | ⟨-, a, evs, d, v, w, res, hran⟩ := exec_cases he
  · exact .inl (State.enterFault_softCfg s _)
  · rw [hran.softCfg_eq]
    exact hran.cfg

/-- R13; the model fault of R95 keeps `dev_addr` too. -/
theorem exec_devAddr {i : Instr} {s t : State} (he : exec i s = .next t) :
    t.devAddr = s.devAddr ∨
      ∃ raw, (i = .setAddress raw ∨ i = .beginSession raw) ∧ t.devAddr = some (normAddr s.params raw) := by
  obtain ⟨-, -, rfl⟩ | ⟨-, a, evs, d, v, w, res, hran⟩ := exec_cases he
  · exact .inl (State.enterFault_devAddr s _)
  · rw [hran.devAddr_eq]
    exact hran.addr.imp_left And.left

/-- Settles O51: every command but SET_CONFIG keeps `soft_cfg`. -/
theorem onlySetConfigWritesSoftCfg : Obligations.OnlySetConfigWritesSoftCfg := by
  unfold Obligations.OnlySetConfigWritesSoftCfg
  intro i s t he hne
  exact (exec_softCfg he).resolve_left hne

/-- Settles O52: every command but SET_ADDRESS and BEGIN keeps `dev_addr`, and these two leave it normalised. -/
theorem onlyAddressingWritesDevAddr : Obligations.OnlyAddressingWritesDevAddr := by
  unfold Obligations.OnlyAddressingWritesDevAddr
  intro i s t he hne
  exact (exec_devAddr he).resolve_left hne

end Sys2Proof.Machine
end

section
/-! The wire order (20_memory.md R40): the stated bytes and words, both round trips, and that no step switches it. -/
namespace Sys2Proof.Machine

/-- A register that holds 16 bits, read back from the bytes it was written as. -/
theorem wireWord_wireBytes_of_le {p : Params} (h : 16 ≤ p.regWidth) (w : Word) :
    wireWord p (wireBytes p w).1 (wireBytes p w).2 = w := by
  rw [wireWord_wireBytes, trunc_of_le h]

/-- Settles O17: reading back truncates to `REG_WIDTH` bits, which loses nothing from 16 bits up. -/
theorem wireOrderRoundTrips : Obligations.WireOrderRoundTrips := by
  unfold Obligations.WireOrderRoundTrips
  intro p w b0 b1
  refine ⟨wireBytes_eq_busBytes p w, wireWord_toNat p b0 b1, ?_, fun h => ?_⟩
  · rw [wireWord_wireBytes, trunc_toNat]
  · exact ⟨wireWord_wireBytes_of_le h w, wireBytes_wireWord h b0 b1⟩

theorem Ran.params_eq {i : Instr} {s t : State} {a : Option BusAddr} {evs : List Event} {d : Nat} {v : SessState}
    {w : Word} {res : Response} (h : Ran i s t a evs d v w res) : t.params = s.params := by
  rw [h.state, State.returnWith_params, State.setSoftCfg_params, State.setSess_params, State.takeDraws_params,
    State.afterCalls_params]

/-- Every command keeps the parameters, also one that meets the model fault (R5, R95). -/
theorem exec_params {i : Instr} {s t : State} (he : exec i s = .next t) : t.params = s.params := by
  obtain ⟨-, -, rfl⟩ | ⟨-, a, evs, d, v, w, res, hran⟩ := exec_cases he
  · exact State.enterFault_params s _
  · exact hran.params_eq

/-- Settles O50: a step idles, refuses, or runs a command that it accepted, and each of these keeps the parameters. -/
theorem parametersNeverChange : Obligations.ParametersNeverChange := by
  unfold Obligations.ParametersNeverChange
  intro s t hstep
  obtain ⟨-, rfl⟩ | ⟨e, -, rfl⟩ | ⟨i, rest, -, he⟩ := step_next hstep
  · rfl
  · exact State.refuse_params s
  · rw [exec_params he, State.accept_params]

end Sys2Proof.Machine
end

section
/-! The event history (20_memory.md R38, R45, R48): what one command appends to it. -/
namespace Sys2Proof.Machine

/-- The transport records of `t` are those of `s` after the calls whose events are `evs`, one answer each (R38). -/
structure Appends (s t : State) (evs : List Event) : Prop where
  hist : t.hist = s.hist ++ evs
  script : t.script = s.script.drop evs.length
  calls : t.calls = s.calls + evs.length

theorem appends_enterFault (s : State) (f : ModelFault) : Appends s (s.enterFault f) [] where
  hist := by rw [State.enterFault_hist, List.append_nil]
  script := State.enterFault_script s f
  calls := State.enterFault_calls s f

theorem Ran.appends {i : Instr} {s t : State} {a : Option BusAddr} {evs : List Event} {d : Nat} {v : SessState}
    {w : Word} {res : Response} (h : Ran i s t a evs d v w res) : Appends s t evs := by
  rw [h.state]
  exact ⟨rfl, rfl, rfl⟩

/-- What the calls of any command are: recorded one by one, no more of them than its rule lists, and each that names
an address names the one that the command leaves held. The model fault of R95 makes none. -/
theorem exec_appends {i : Instr} {s t : State} (he : exec i s = .next t) :
    ∃ evs, Appends s t evs ∧
      (evs.countP Event.triesBegin ≤ maxBegins i ∧ evs.countP Event.triesRequest ≤ maxRequests i) ∧
      ∀ e ∈ evs, ∀ a, (e = .beginTxn a ∨ ∃ n, e = .request a n) → t.devAddr = some a := by
  obtain ⟨-, -, rfl⟩ | ⟨-, a, evs, d, v, w, res, hran⟩ := exec_cases he
  · exact ⟨[], appends_enterFault s _, ⟨Nat.zero_le _, Nat.zero_le _⟩, fun e hmem => absurd hmem List.not_mem_nil⟩
  · refine ⟨evs, hran.appends, hran.tries, ?_⟩
    rw [hran.devAddr_eq]
    exact hran.on_addr

/-- Settles O55: the records of a command's calls and the addresses they name, from `exec_appends`. -/
theorem historyRecordsEveryCall : Obligations.HistoryRecordsEveryCall := by
  unfold Obligations.HistoryRecordsEveryCall
  intro i s t he
  obtain ⟨evs, happ, -, haddr⟩ := exec_appends he
  exact ⟨evs, happ.hist, happ.script, happ.calls, haddr⟩

/-- Settles O57: the bounds on a command's calls, from `exec_appends`. -/
theorem noRetriesNoReadAhead : Obligations.NoRetriesNoReadAhead := by
  unfold Obligations.NoRetriesNoReadAhead
  intro i s t he
  obtain ⟨evs, happ, htries, -⟩ := exec_appends he
  exact ⟨evs, happ.hist, htries⟩

end Sys2Proof.Machine
end

section
/-! The decoder by rows of the opcode map (30_encoding.md R54 to R57, R65): each format read and written by one pair of
functions, each row of R55 tied once to `decode` and `encode`; what decodes, and what is refused, follows for all
commands alike. -/
namespace Sys2Proof

/-! ## Readers -/

theorem withOperands_ok_iff {α : Type} {p : Reader α} {mk : α → Instr} {bs rest : List Byte} {i : Instr} :
    withOperands p mk bs = .ok (i, rest) ↔ ∃ x, p bs = some (x, rest) ∧ i = mk x := by
  refine ⟨withOperands_ok, ?_⟩
  rintro ⟨x, hx, rfl⟩
  rw [withOperands, hx]

/-- A reader that undoes a writer and reads nothing else answers exactly on the writer's bytes. -/
theorem Reader.Undoes.iff {α : Type} {p : Reader α} {put : α → List Byte} (hu : p.Undoes put)
    (ho : p.OnlyReads put) {bs rest : List Byte} {x : α} : p bs = some (x, rest) ↔ bs = put x ++ rest := by
  refine ⟨ho bs x rest, ?_⟩
  rintro rfl
  exact hu x rest

theorem readByte8_undoes : Reader.Undoes readByte8 fun b => [b] := readByte8_cons

theorem readWR_append {reg : Byte} {data : List Byte} (h : data.length < 256) (bs : List Byte) :
    readWR (reg :: BitVec.ofNat 8 data.length :: data ++ bs) = some ((reg, data), bs) := by
  have hlen : (BitVec.ofNat 8 data.length).toNat = data.length := by rw [BitVec.toNat_ofNat, Nat.mod_eq_of_lt h]
  simp only [readWR, readPair, List.cons_append, readByte8_cons, hlen, readBytes_append]

/-- Format WR runs out where `reg` or `len` is missing, or fewer data bytes follow than `len` says. -/
theorem readWR_needs (bs : List Byte) :
    (readWR bs = none ↔ bs.length < 2 + (bs.getD 1 0).toNat) ∧
    ∀ x rest, readWR bs = some (x, rest) → bs.length = 2 + (bs.getD 1 0).toNat + rest.length := by
  match bs with
  | [] => simp [readWR, readPair, readByte8]
  | [_] => simp [readWR, readPair, readByte8]
  | reg :: len :: bs =>
    have hread : readWR (reg :: len :: bs) = (readBytes len.toNat bs).map fun x => ((reg, x.1), x.2) := by
      simp only [readWR, readPair, readByte8_cons]
      cases readBytes len.toNat bs <;> rfl
    obtain ⟨hnone, hsome⟩ := readBytes_needs len.toNat
    rw [hread]
    refine ⟨?_, fun x rest h => ?_⟩
    · rw [Option.map_eq_none_iff, hnone]
      simp only [List.length_cons, List.getD_cons_succ, List.getD_cons_zero]
      omega
    · obtain ⟨⟨data, rest'⟩, hdata, hx⟩ := Option.map_eq_some_iff.1 h
      obtain ⟨-, rfl⟩ := Prod.mk.inj hx
      have := hsome _ _ _ hdata
      simp only [List.length_cons, List.getD_cons_succ, List.getD_cons_zero]
      omega

/-! ## Formats -/

/-- The operands of a format (R54). -/
abbrev Format.Args : Format → Type
  | .N => Unit
  | .B => Byte
  | .W2 => Byte × Byte
  | .CF => CfgInputs
  | .CFM => Word × CfgInputs
  | .RF => Word × Word
  | .WR => Byte × List Byte
  | .RD => Byte × Byte

/-- The reader that the decoder uses for a format. -/
def Format.read : (f : Format) → Reader f.Args
  | .N => fun bs => some ((), bs)
  | .B => readByte8
  | .W2 => readPair readByte8 readByte8
  | .CF => readCfg
  | .CFM => readPair readWord16 readCfg
  | .RF => readPair readWord16 readWord16
  | .WR => readWR
  | .RD => readPair readByte8 readByte8

/-- The operand bytes of a format (R54). -/
def Format.put : (f : Format) → f.Args → List Byte
  | .N, _ => []
  | .B, b => [b]
  | .W2, (b0, b1) => [b0, b1]
  | .CF, f => putCfg f
  | .CFM, (sel, f) => putWord sel ++ putCfg f
  | .RF, (r, e) => putWord r ++ putWord e
  | .WR, (reg, data) => reg :: BitVec.ofNat 8 data.length :: data
  | .RD, (reg, len) => [reg, len]

/-- Operands that the serialised form can carry: the data length of format WR is one byte (R54). -/
def Format.Fits : (f : Format) → f.Args → Prop
  | .WR, (_, data) => data.length < 256
  | _, _ => True

theorem Format.read_iff_of_undoes (f : Format) (hu : f.read.Undoes f.put) (ho : f.read.OnlyReads f.put)
    (hfits : ∀ x, f.Fits x) {bs rest : List Byte} {x : f.Args} :
    f.read bs = some (x, rest) ↔ bs = f.put x ++ rest ∧ f.Fits x := by
  rw [hu.iff ho, and_iff_left (hfits x)]

/-- A format's reader answers on the bytes its writer puts, and on no others. -/
theorem Format.read_iff (f : Format) {bs rest : List Byte} {x : f.Args} :
    f.read bs = some (x, rest) ↔ bs = f.put x ++ rest ∧ f.Fits x := by
  have hb := readByte8_undoes
  have hb' := readByte8_onlyReads
  have hw := readWord16_undoes
  have hw' := readWord16_onlyReads
  cases f with
  | N => simp [Format.read, Format.put, Format.Fits, eq_comm]
  | B => exact read_iff_of_undoes .B hb hb' fun _ => trivial
  | W2 => exact read_iff_of_undoes .W2 (readPair_undoes hb hb) (readPair_onlyReads hb' hb') fun _ => trivial
  | CF => exact read_iff_of_undoes .CF readCfg_undoes readCfg_onlyReads fun _ => trivial
  | CFM =>
    exact read_iff_of_undoes .CFM (readPair_undoes hw readCfg_undoes) (readPair_onlyReads hw' readCfg_onlyReads)
      fun _ => trivial
  | RF => exact read_iff_of_undoes .RF (readPair_undoes hw hw) (readPair_onlyReads hw' hw') fun _ => trivial
  | RD => exact read_iff_of_undoes .RD (readPair_undoes hb hb) (readPair_onlyReads hb' hb') fun _ => trivial
  | WR =>
    refine ⟨fun h => (readWR_onlyReads h).symm, ?_⟩
    rintro ⟨rfl, hfits⟩
    exact readWR_append hfits rest

/-- The operands of a format run out exactly where the command is shorter than the format's length, opcode byte
included, and else take exactly that length (R54, R65). -/
theorem Format.read_needs (f : Format) (bs : List Byte) :
    (f.read bs = none ↔ bs.length + 1 < f.serialLength (bs.getD 1 0).toNat) ∧
    ∀ x rest, f.read bs = some (x, rest) → bs.length + 1 = f.serialLength (bs.getD 1 0).toNat + rest.length := by
  have fixed {n : Nat} (h : f.read.Needs n) (hlen : f.serialLength (bs.getD 1 0).toNat = n + 1) :
      (f.read bs = none ↔ bs.length + 1 < f.serialLength (bs.getD 1 0).toNat) ∧
      ∀ x rest, f.read bs = some (x, rest) →
        bs.length + 1 = f.serialLength (bs.getD 1 0).toNat + rest.length := by
    rw [hlen]
    refine ⟨(h.1 bs).trans Nat.succ_lt_succ_iff.symm, fun x rest hx => ?_⟩
    have := h.2 bs x rest hx
    omega
  have hb := readByte8_needs
  have hw := readWord16_needs
  cases f with
  | N => simp [Format.read, Format.serialLength, Nat.add_comm]
  | B => exact fixed hb rfl
  | W2 => exact fixed (readPair_needs hb hb) rfl
  | CF => exact fixed readCfg_needs rfl
  | CFM => exact fixed (readPair_needs hw readCfg_needs) rfl
  | RF => exact fixed (readPair_needs hw hw) rfl
  | RD => exact fixed (readPair_needs hb hb) rfl
  | WR =>
    obtain ⟨hnone, hsome⟩ := readWR_needs bs
    simp only [Format.read, Format.serialLength]
    refine ⟨hnone.trans (by omega), fun x rest hx => ?_⟩
    have := hsome x rest hx
    omega

/-! ## Rows of the opcode map -/

/-- A row of R55: an opcode, its format, and the command that it makes of that format's operands. -/
structure OpcodeRow where
  op : Byte
  format : Format
  build : format.Args → Instr

/-- The 18 rows, in the order of `opcodeMap`. -/
def opcodeRows : List OpcodeRow :=
  [⟨0x01, .CF, .encodeConfig⟩,
    ⟨0x02, .W2, fun x => .decodeConfig x.1 x.2⟩,
    ⟨0x03, .RF, fun x => .encodeResult x.1 x.2⟩,
    ⟨0x04, .W2, fun x => .decodeResult x.1 x.2⟩,
    ⟨0x05, .RF, fun x => .illuminance x.1 x.2⟩,
    ⟨0x10, .WR, fun x => .writeRegister x.1 x.2⟩,
    ⟨0x11, .RD, fun x => .readRegister x.1 x.2⟩,
    ⟨0x20, .B, .setAddress⟩,
    ⟨0x21, .N, fun _ => .checkComms⟩,
    ⟨0x22, .N, fun _ => .applyConfig⟩,
    ⟨0x23, .B, .beginSession⟩,
    ⟨0x24, .CFM, fun x => .setConfig x.1 x.2⟩,
    ⟨0x25, .N, fun _ => .readConfig⟩,
    ⟨0x26, .N, fun _ => .getIlluminance⟩,
    ⟨0x27, .N, fun _ => .getHighLimit⟩,
    ⟨0x28, .RF, fun x => .setHighLimit x.1 x.2⟩,
    ⟨0x29, .N, fun _ => .getLowLimit⟩,
    ⟨0x2A, .RF, fun x => .setLowLimit x.1 x.2⟩]

theorem opcodeMap_eq_rows : opcodeMap = opcodeRows.map fun r => (r.op, r.format) := rfl

/-- A command whose data length one byte can carry (R54). -/
def Instr.Serialisable : Instr → Prop
  | .writeRegister _ data => data.length < 256
  | _ => True

/-- What ties a row to the decoder and to the encoder. -/
structure OpcodeRow.Describes (r : OpcodeRow) : Prop where
  decode_eq : ∀ bs, decode (r.op :: bs) = withOperands r.format.read r.build bs
  encode_eq : ∀ x, encode (r.build x) = r.op :: r.format.put x
  opcode_eq : ∀ x, (r.build x).opcode = r.op
  format_eq : ∀ x, (r.build x).format = r.format
  serialisable_iff : ∀ x, (r.build x).Serialisable ↔ r.format.Fits x

theorem opcodeRows_describe {r : OpcodeRow} (h : r ∈ opcodeRows) : r.Describes := by
  simp only [opcodeRows, List.mem_cons, List.not_mem_nil, or_false] at h
  obtain rfl | rfl | rfl | rfl | rfl | rfl | rfl | rfl | rfl | rfl | rfl | rfl | rfl | rfl | rfl | rfl | rfl |
    rfl := h <;>
  exact ⟨fun _ => rfl, fun _ => rfl, fun _ => rfl, fun _ => rfl, fun _ => Iff.rfl⟩

theorem exists_row_of_mem {op : Byte} {f : Format} (h : (op, f) ∈ opcodeMap) :
    ∃ r ∈ opcodeRows, r.op = op ∧ r.format = f := by
  rw [opcodeMap_eq_rows] at h
  obtain ⟨r, hr, hrow⟩ := List.mem_map.1 h
  exact ⟨r, hr, Prod.mk.inj hrow⟩

/-- Every command is built by a row; the rows are counted in the order of the constructors. -/
theorem exists_row_of_instr (i : Instr) :
    ∃ n, ∃ _ : n < opcodeRows.length, ∃ x : opcodeRows[n].format.Args, i = opcodeRows[n].build x := by
  cases i with
  | encodeConfig f => exact ⟨0, by decide, f, rfl⟩
  | decodeConfig b0 b1 => exact ⟨1, by decide, (b0, b1), rfl⟩
  | encodeResult r e => exact ⟨2, by decide, (r, e), rfl⟩
  | decodeResult b0 b1 => exact ⟨3, by decide, (b0, b1), rfl⟩
  | illuminance r e => exact ⟨4, by decide, (r, e), rfl⟩
  | writeRegister reg data => exact ⟨5, by decide, (reg, data), rfl⟩
  | readRegister reg len => exact ⟨6, by decide, (reg, len), rfl⟩
  | setAddress raw => exact ⟨7, by decide, raw, rfl⟩
  | checkComms => exact ⟨8, by decide, (), rfl⟩
  | applyConfig => exact ⟨9, by decide, (), rfl⟩
  | beginSession raw => exact ⟨10, by decide, raw, rfl⟩
  | setConfig sel f => exact ⟨11, by decide, (sel, f), rfl⟩
  | readConfig => exact ⟨12, by decide, (), rfl⟩
  | getIlluminance => exact ⟨13, by decide, (), rfl⟩
  | getHighLimit => exact ⟨14, by decide, (), rfl⟩
  | setHighLimit r e => exact ⟨15, by decide, (r, e), rfl⟩
  | getLowLimit => exact ⟨16, by decide, (), rfl⟩
  | setLowLimit r e => exact ⟨17, by decide, (r, e), rfl⟩

theorem mem_opcodes_of_toNat {op : Byte} {n : Nat} (h : op.toNat = n)
    (hn : n ∈ opcodeMap.map fun r => r.1.toNat) : ∃ f, (op, f) ∈ opcodeMap := by
  obtain ⟨⟨op', f⟩, hmem, hop⟩ := List.mem_map.1 hn
  exact ⟨f, BitVec.eq_of_toNat_eq (h.trans hop.symm) ▸ hmem⟩

/-- The decoder assigns no opcode outside the map (R56). -/
theorem decode_unassigned {op : Byte} (h : ∀ f, (op, f) ∉ opcodeMap) (bs : List Byte) :
    decode (op :: bs) = .error (.unassignedOpcode op) := by
  have hne {n : Nat} (hn : n ∈ opcodeMap.map fun r => r.1.toNat) (hop : op.toNat = n) : False :=
    (mem_opcodes_of_toNat hop hn).elim h
  rw [decode, decodeOperands]
  split
  case h_19 => rfl
  all_goals next hop => exact (hne (by decide) hop).elim

/-! ## Decoding and encoding -/

theorem Instr.WellFormed.serialisable {i : Instr} {p : Params} (h : i.WellFormed p) : i.Serialisable := by
  cases i with
  | writeRegister reg data =>
    have hfits : data.length ≤ p.maxXferLen.toNat := of_decide_eq_true h
    exact Nat.lt_of_le_of_lt hfits p.maxXferLen.isLt
  | _ => trivial

/-- At `MAX_XFER_LEN = 255` every length that a byte carries is legal (R57). -/
theorem Instr.Serialisable.wellFormed {i : Instr} (h : i.Serialisable) {p : Params} (hp : p.maxXferLen = 255) :
    i.WellFormed p := by
  have fits {n : Nat} (hn : n < 256) : lenFits p n = true := by
    rw [lenFits, hp]
    exact decide_eq_true (Nat.le_of_lt_succ hn)
  cases i with
  | writeRegister reg data => exact fits h
  | readRegister reg len => exact fits len.isLt
  | _ => rfl

/-- The decoder answers on the bytes of a command that has a serialised form, and on no others. -/
theorem decode_ok_iff {bs rest : List Byte} {i : Instr} :
    decode bs = .ok (i, rest) ↔ bs = encode i ++ rest ∧ i.Serialisable := by
  constructor
  · intro h
    match bs with
    | [] => cases h
    | op :: bs =>
      by_cases hop : ∃ f, (op, f) ∈ opcodeMap
      · obtain ⟨f, hf⟩ := hop
        obtain ⟨r, hr, rfl, rfl⟩ := exists_row_of_mem hf
        obtain ⟨hdec, henc, -, -, hser⟩ := opcodeRows_describe hr
        rw [hdec, withOperands_ok_iff] at h
        obtain ⟨x, hx, rfl⟩ := h
        obtain ⟨rfl, hfits⟩ := r.format.read_iff.1 hx
        exact ⟨by rw [henc, List.cons_append], (hser x).2 hfits⟩
      · rw [decode_unassigned (not_exists.1 hop)] at h
        cases h
  · rintro ⟨rfl, hi⟩
    obtain ⟨n, hn, x, rfl⟩ := exists_row_of_instr i
    obtain ⟨hdec, henc, -, -, hser⟩ := opcodeRows_describe (List.getElem_mem hn)
    rw [henc, List.cons_append, hdec, withOperands_ok_iff]
    exact ⟨x, (Format.read_iff _).2 ⟨rfl, (hser x).1 hi⟩, rfl⟩

/-- Settles O6: a well-formed command has a serialised form, on which the decoder answers. -/
theorem decodeOfEncodeIsIdentity : Obligations.DecodeOfEncodeIsIdentity := by
  unfold Obligations.DecodeOfEncodeIsIdentity
  intro p i rest hi
  exact decode_ok_iff.2 ⟨rfl, Instr.WellFormed.serialisable hi⟩

/-- Settles O7: the bytes that decode are the command's own, and its data length is one byte's value. -/
theorem decodeReadsOnlyEncodings : Obligations.DecodeReadsOnlyEncodings := by
  unfold Obligations.DecodeReadsOnlyEncodings
  intro bs rest i h
  obtain ⟨hbs, hi⟩ := decode_ok_iff.1 h
  exact ⟨hbs, fun p hp => hi.wellFormed hp⟩

/-- Settles O8: an opcode outside the map has no row, and a row's format says how many bytes its operands need. -/
theorem decoderRefusesExactlyUnassignedAndShort : Obligations.DecoderRefusesExactlyUnassignedAndShort := by
  unfold Obligations.DecoderRefusesExactlyUnassignedAndShort
  refine ⟨rfl, fun op bs => ⟨fun h => decode_unassigned h bs, fun f hf => ?_⟩⟩
  obtain ⟨r, hr, rfl, rfl⟩ := exists_row_of_mem hf
  obtain ⟨hdec, -, hop, hformat, -⟩ := opcodeRows_describe hr
  obtain ⟨hnone, hsome⟩ := r.format.read_needs bs
  rw [hdec, List.length_cons]
  split
  · next hshort => exact withOperands_error.2 ⟨hnone.2 hshort, rfl⟩
  · next hlong =>
    obtain ⟨⟨x, rest⟩, hx⟩ := Option.ne_none_iff_exists'.1 (mt hnone.1 hlong)
    exact ⟨r.build x, rest, withOperands_ok_iff.2 ⟨x, hx, rfl⟩, hop x, hformat x, hsome x rest hx⟩

end Sys2Proof
end

section
/-! The two register layouts (30_encoding.md R58 to R62): each field is read back from where it was packed. -/
namespace Sys2Proof.Machine

/-! ## The Configuration Word -/

/-- A field of the packed word is an input truncated to its width where the word's bits there are the input's. -/
theorem extract_packCfg {k : Nat} {f : FieldInputs k} {v : BitVec k} {pos w : Nat}
    (h : ∀ i < w, (packCfg f).getLsbD (pos + i) = v.getLsbD i) : (packCfg f).extractLsb' pos w = v.setWidth w := by
  apply BitVec.eq_of_getLsbD_eq
  intro i hi
  rw [BitVec.getLsbD_extractLsb', BitVec.getLsbD_setWidth, h i hi]

theorem extract_packCfg_bit {k : Nat} {f : FieldInputs k} {v : BitVec k} {pos : Nat}
    (h : (packCfg f).getLsbD pos = v.getLsbD 0) : (packCfg f).extractLsb' pos 1 = v.setWidth 1 :=
  extract_packCfg fun i hi => by rw [Nat.lt_one_iff.1 hi, Nat.add_zero, h]

theorem unpackCfg_packCfg {k : Nat} (f : FieldInputs k) : unpackCfg (packCfg f) = truncCfg f := by
  have bit (i : Nat) (h : i < 16) := packCfg_getLsbD f i h
  unfold unpackCfg truncCfg
  congr 1
  · exact extract_packCfg fun i hi => by interval_cases i <;> exact bit _ (by decide)
  · exact extract_packCfg_bit (bit 2 (by decide))
  · exact extract_packCfg_bit (bit 3 (by decide))
  · exact extract_packCfg_bit (bit 4 (by decide))
  · exact extract_packCfg_bit (bit 5 (by decide))
  · exact extract_packCfg_bit (bit 6 (by decide))
  · exact extract_packCfg_bit (bit 7 (by decide))
  · exact extract_packCfg_bit (bit 8 (by decide))
  · exact extract_packCfg fun i hi => by interval_cases i <;> exact bit _ (by decide)
  · exact extract_packCfg_bit (bit 11 (by decide))
  · exact extract_packCfg fun i hi => by interval_cases i <;> exact bit _ (by decide)

/-- The fields cover all 16 bits. -/
theorem packCfg_unpackCfg (w : Word) : packCfg (unpackCfg w).toInputs = w := by
  apply BitVec.eq_of_getLsbD_eq
  intro i hi
  rw [packCfg_getLsbD _ i hi]
  obtain rfl | rfl | rfl | rfl | rfl | rfl | rfl | rfl | rfl | rfl | rfl | rfl | rfl | rfl | rfl | rfl :=
    bit16_cases hi <;>
  simp [unpackCfg, CfgFields.toInputs]

/-! ## The Result Word -/

theorem readingOf_packRes {k : Nat} (r e : BitVec k) : readingOf (packRes r e) = r.setWidth 12 := by
  apply BitVec.eq_of_toNat_eq
  rw [readingOf_eq, packRes_toNat, BitVec.toNat_ofNat, BitVec.toNat_setWidth]
  omega

theorem exponentOf_packRes {k : Nat} (r e : BitVec k) : exponentOf (packRes r e) = e.setWidth 4 := by
  apply BitVec.eq_of_toNat_eq
  rw [exponentOf_eq, packRes_toNat, BitVec.toNat_ofNat, BitVec.toNat_setWidth]
  omega

theorem packRes_readingOf_exponentOf (w : Word) :
    packRes ((readingOf w).setWidth 16) ((exponentOf w).setWidth 16) = w := by
  apply BitVec.eq_of_toNat_eq
  rw [packRes_toNat, readingOf_eq, exponentOf_eq]
  simp only [BitVec.toNat_setWidth, BitVec.toNat_ofNat]
  omega

/-- Settles O18: each layout's fields are disjoint and cover the word. -/
theorem registerLayoutsRoundTrip : Obligations.RegisterLayoutsRoundTrip := by
  unfold Obligations.RegisterLayoutsRoundTrip
  exact ⟨packCfg_unpackCfg, fun _ => unpackCfg_packCfg, fun w => congrArg unpackCfg (packCfg_unpackCfg w),
    packRes_readingOf_exponentOf, fun _ r e => ⟨readingOf_packRes r e, exponentOf_packRes r e⟩⟩

end Sys2Proof.Machine
end

section
/-! The host port (30_encoding.md R53, R55): how a presented command comes to run, and what the outputs show. -/
namespace Sys2Proof.Machine

/-! ## The command inputs -/

theorem remaining_eq (rest : List Byte) (later : List (List Byte)) :
    remaining rest later = if rest = [] then later else rest :: later := by
  cases rest <;> rfl

theorem fetch_presented {s : State} {bs rest : List Byte} {later : List (List Byte)} {i : Instr}
    (hport : s.port = bs :: later) (hdec : decode bs = .ok (i, rest)) :
    fetch s = .command i (s.accept (remaining rest later)) := by
  simp only [fetch, hport, hdec]

theorem step_presented {s : State} {bs rest : List Byte} {later : List (List Byte)} {i : Instr} (hs : s.Ready)
    (hport : s.port = bs :: later) (hdec : decode bs = .ok (i, rest)) :
    step s = exec i (s.accept (remaining rest later)) := by
  simp only [step, noMove_ready hs, fetch_presented hport hdec]

theorem noMove_of_port_nil {s : State} (hs : s.Unmarked) (hport : s.port = []) : noMove s = none := by
  obtain ⟨hfault, hrefused⟩ := hs
  simp [noMove, hfault, hrefused, hport]

theorem fetch_of_port_nil {s : State} (hport : s.port = []) : fetch s = .idle := by
  simp only [fetch, hport]

/-- Settles O10: `accept` sets `busy` and leaves on the port what remains. -/
theorem stepRunsPresentedCommand : Obligations.StepRunsPresentedCommand := by
  unfold Obligations.StepRunsPresentedCommand
  intro s bs rest later i hs hport hdec
  rw [step_presented hs hport hdec, remaining_eq, State.accept]

/-- Settles O11: with an empty port nothing stops an unmarked block, and nothing is fetched. -/
theorem stepIdlesWithoutCommand : Obligations.StepIdlesWithoutCommand := by
  unfold Obligations.StepIdlesWithoutCommand
  intro s hs hport
  simp only [step, noMove_of_port_nil hs hport, fetch_of_port_nil hport]

/-! ## The opcode table's numbering -/

theorem decodeTableWord_eq_some {nbits w : Nat} {i : Instr} (h : decodeTableWord nbits w = some i) :
    ∃ rest, decode (tableBytes nbits w) = .ok (i, rest) := by
  unfold decodeTableWord at h
  split at h
  · next j rest hdec => exact ⟨rest, Option.some.inj h ▸ hdec⟩
  · cases h

theorem tableWordBytes_eq_encode {nbits w : Nat} {i : Instr} {rest : List Byte}
    (h : decode (tableBytes nbits w) = .ok (i, rest)) : tableWordBytes nbits w = encode i := by
  obtain ⟨hbytes, -⟩ := decode_ok_iff.1 h
  simp only [tableWordBytes, h]
  rw [hbytes, List.length_append, Nat.add_sub_cancel, List.take_left]

/-- The word of a table row stands for that command's bytes and no more. -/
theorem decode_tableWordBytes {nbits w : Nat} {i : Instr} (h : decodeTableWord nbits w = some i) :
    decode (tableWordBytes nbits w) = .ok (i, []) := by
  obtain ⟨rest, hdec⟩ := decodeTableWord_eq_some h
  obtain ⟨-, hi⟩ := decode_ok_iff.1 hdec
  rw [tableWordBytes_eq_encode hdec]
  exact decode_ok_iff.2 ⟨(List.append_nil _).symm, hi⟩

/-- Settles O15: presenting the word's bytes leaves the block ready, and running them leaves the port as it was. -/
theorem fetchWordRunsTableCommand : Obligations.FetchWordRunsTableCommand := by
  unfold Obligations.FetchWordRunsTableCommand
  intro s nbits w i hs hword
  have hready : (s.withFetchWord nbits w).Ready := hs
  rw [step_presented hready rfl (decode_tableWordBytes hword)]
  rfl

/-! ## The outputs -/

theorem responsePort_of_nil {s : State} (h : s.responses = []) : s.responsePort = none := by
  rw [State.responsePort, h, List.getLast?_nil, Option.map_none]

theorem responsePort_of_last {s : State} {r : Response} (h : s.responses.getLast? = some r) :
    s.responsePort = some (r.status.code, r.payload) := by
  rw [State.responsePort, h, Option.map_some]

theorem statusPort_devAddr {s : State} {a : BusAddr} (h : s.devAddr = some a) : s.statusPort.devAddr = a := by
  rw [State.statusPort, h, Option.getD_some]

/-- Settles O59: the status outputs are the registers, and `code` gives each session state and status its code. -/
theorem statusPortShowsRegisters : Obligations.StatusPortShowsRegisters := by
  unfold Obligations.StatusPortShowsRegisters
  intro s
  refine ⟨rfl, rfl, rfl, fun _ => statusPort_devAddr, ?_, responsePort_of_nil, fun r hr => ?_⟩
  · change s.sess.code = _
    cases s.sess <;> rfl
  · rw [responsePort_of_last hr]
    cases r.status <;> rfl

/-! ## Textual lines -/

/-- Settles O60: each line is assembled by evaluation. -/
theorem specLinesAssemble : Obligations.SpecLinesAssemble := by
  unfold Obligations.SpecLinesAssemble
  decide

end Sys2Proof.Machine
end

section
/-! The Register Codec commands (40_codec.md R67 to R72): what each returns, by arithmetic. -/
namespace Sys2Proof.Machine

/-! ## What each codec command answers -/

theorem exec_encodeConfig (f : CfgInputs) (s : State) : exec (.encodeConfig f) s =
    .next (s.returnWith ⟨.ok, wirePayload s.params (packCfg (fieldInputs s.params f))⟩) := rfl

theorem exec_decodeConfig (b0 b1 : Byte) (s : State) : exec (.decodeConfig b0 b1) s =
    .next (s.returnWith ⟨.ok, .config (unpackCfg (wireWord s.params b0 b1))⟩) := rfl

theorem exec_encodeResult (r e : Word) (s : State) : exec (.encodeResult r e) s =
    .next (s.returnWith ⟨.ok, wirePayload s.params (packRes (fieldInput s.params r) (fieldInput s.params e))⟩) := rfl

theorem exec_decodeResult (b0 b1 : Byte) (s : State) : exec (.decodeResult b0 b1) s =
    .next (s.returnWith ⟨.ok, unpackRes (wireWord s.params b0 b1)⟩) := rfl

theorem exec_illuminance (r e : Word) (s : State) : exec (.illuminance r e) s =
    .next (s.returnWith ⟨.ok, luxPayload s.params.luxScale ((fieldInput s.params r).setWidth 12)
      ((fieldInput s.params e).setWidth 4)⟩) := rfl

theorem wirePayload_eq_busBytes (p : Params) (w : Word) :
    wirePayload p w = .wire (busBytes p w.toNat).1 (busBytes p w.toNat).2 := by
  rw [wirePayload, wireBytes_eq_busBytes]

theorem wirePayload_wireWord {p : Params} (h : 16 ≤ p.regWidth) (b0 b1 : Byte) :
    wirePayload p (wireWord p b0 b1) = .wire b0 b1 := by
  rw [wirePayload, wireBytes_wireWord h]

/-! ## The Configuration Word by arithmetic -/

theorem extractField_toNat (w : Word) (pos k : Nat) : (w.extractLsb' pos k).toNat = w.toNat / 2 ^ pos % 2 ^ k := by
  rw [BitVec.extractLsb'_toNat, Nat.shiftRight_eq_div_pow]

/-- R16, R59: each field is the quotient by its place, reduced to its width; the last field reaches the word's top. -/
theorem unpackCfg_toNat (w : Word) :
    (unpackCfg w).fc.toNat = w.toNat % 4 ∧ (unpackCfg w).me.toNat = w.toNat / 4 % 2 ∧
    (unpackCfg w).pol.toNat = w.toNat / 8 % 2 ∧ (unpackCfg w).l.toNat = w.toNat / 16 % 2 ∧
    (unpackCfg w).fl.toNat = w.toNat / 32 % 2 ∧ (unpackCfg w).fh.toNat = w.toNat / 64 % 2 ∧
    (unpackCfg w).crf.toNat = w.toNat / 128 % 2 ∧ (unpackCfg w).ovf.toNat = w.toNat / 256 % 2 ∧
    (unpackCfg w).m.toNat = w.toNat / 512 % 4 ∧ (unpackCfg w).ct.toNat = w.toNat / 2048 % 2 ∧
    (unpackCfg w).rn.toNat = w.toNat / 4096 := by
  have hfc : w.toNat / 2 ^ 0 % 2 ^ 2 = w.toNat % 4 := by omega
  have hrn : w.toNat / 2 ^ 12 % 2 ^ 4 = w.toNat / 4096 := by
    have hw := w.isLt
    omega
  exact ⟨(extractField_toNat w 0 2).trans hfc, extractField_toNat w 2 1, extractField_toNat w 3 1,
    extractField_toNat w 4 1, extractField_toNat w 5 1, extractField_toNat w 6 1, extractField_toNat w 7 1,
    extractField_toNat w 8 1, extractField_toNat w 9 2, extractField_toNat w 11 1,
    (extractField_toNat w 12 4).trans hrn⟩

/-- The value of a Configuration Word is the sum of its fields, each at its place. -/
theorem toNat_eq_unpackCfg (w : Word) : w.toNat =
    (unpackCfg w).fc.toNat + (unpackCfg w).me.toNat * 4 + (unpackCfg w).pol.toNat * 8 + (unpackCfg w).l.toNat * 16 +
      (unpackCfg w).fl.toNat * 32 + (unpackCfg w).fh.toNat * 64 + (unpackCfg w).crf.toNat * 128 +
      (unpackCfg w).ovf.toNat * 256 + (unpackCfg w).m.toNat * 512 + (unpackCfg w).ct.toNat * 2048 +
      (unpackCfg w).rn.toNat * 4096 := by
  obtain ⟨hfc, hme, hpol, hl, hfl, hfh, hcrf, hovf, hm, hct, hrn⟩ := unpackCfg_toNat w
  rw [hfc, hme, hpol, hl, hfl, hfh, hcrf, hovf, hm, hct, hrn]
  omega

/-- R59: the fields of the packed word are the truncated inputs. -/
theorem packCfg_toNat {k : Nat} (f : FieldInputs k) : (packCfg f).toNat =
    f.fc.toNat % 4 + f.me.toNat % 2 * 4 + f.pol.toNat % 2 * 8 + f.l.toNat % 2 * 16 + f.fl.toNat % 2 * 32 +
      f.fh.toNat % 2 * 64 + f.crf.toNat % 2 * 128 + f.ovf.toNat % 2 * 256 + f.m.toNat % 4 * 512 +
      f.ct.toNat % 2 * 2048 + f.rn.toNat % 16 * 4096 := by
  rw [toNat_eq_unpackCfg, unpackCfg_packCfg]
  simp only [truncCfg, BitVec.toNat_setWidth]

/-! ## Field inputs that hold a decoded field -/

/-- A field given back as an operand loses nothing where the field input has its bits. -/
theorem fieldInput_setWidth_of_le {p : Params} {k : Nat} (h : k ≤ p.fieldInWidth) (x : BitVec k) :
    fieldInput p (x.setWidth 16) = x.setWidth 16 := by
  apply BitVec.eq_of_toNat_eq
  rw [fieldInput_toNat, inputValue, BitVec.toNat_setWidth]
  have hx : x.toNat < 2 ^ p.fieldInWidth := Nat.lt_of_lt_of_le x.isLt (Nat.pow_le_pow_right (by decide) h)
  exact Nat.mod_eq_of_lt (Nat.lt_of_le_of_lt (Nat.mod_le _ _) hx)

/-- The widest field of R16 has 4 bits. -/
theorem fieldInputs_toInputs {p : Params} (h : 4 ≤ p.fieldInWidth) (f : CfgFields) :
    fieldInputs p f.toInputs = f.toInputs := by
  have h1 : 1 ≤ p.fieldInWidth := by omega
  have h2 : 2 ≤ p.fieldInWidth := by omega
  simp only [fieldInputs, CfgFields.toInputs, fieldInput_setWidth_of_le h, fieldInput_setWidth_of_le h1,
    fieldInput_setWidth_of_le h2]

/-! ## The Configuration commands -/

/-- Settles O19: the packed word's value is the sum of the truncated inputs, each at its place. -/
theorem encodeConfigPacksFields : Obligations.EncodeConfigPacksFields := by
  unfold Obligations.EncodeConfigPacksFields
  intro s f v w
  have hw : (packCfg (fieldInputs s.params f)).toNat = w := by
    rw [packCfg_toNat]
    simp only [fieldInputs, fieldInput_toNat, v, w]
  exact ⟨rfl, rfl, by rw [exec_encodeConfig, wirePayload_eq_busBytes, hw]⟩

/-- Settles O20: the record is the unpacked bus word. -/
theorem decodeConfigReadsFields : Obligations.DecodeConfigReadsFields := by
  unfold Obligations.DecodeConfigReadsFields
  intro s b0 b1
  rw [← wireWord_toNat]
  exact ⟨unpackCfg (wireWord s.params b0 b1), exec_decodeConfig b0 b1 s, unpackCfg_toNat _⟩

/-- Settles O25: packing undoes unpacking, and field inputs of 4 bits and registers of 16 bits lose nothing. -/
theorem configRoundTripOnTheBus : Obligations.ConfigRoundTripOnTheBus := by
  unfold Obligations.ConfigRoundTripOnTheBus
  intro s t b0 b1 hp hreg hin
  refine ⟨unpackCfg (wireWord s.params b0 b1), exec_decodeConfig b0 b1 s, ?_⟩
  rw [exec_encodeConfig, hp, fieldInputs_toInputs hin, packCfg_unpackCfg, wirePayload_wireWord hreg]

/-! ## The Result and illuminance commands -/

/-- Settles O21: the packed word's value is the truncated reading below the truncated exponent. -/
theorem encodeResultPacksReading : Obligations.EncodeResultPacksReading := by
  unfold Obligations.EncodeResultPacksReading
  intro s r e w
  have hw : (packRes (fieldInput s.params r) (fieldInput s.params e)).toNat = w := by
    rw [packRes_toNat, fieldInput_toNat, fieldInput_toNat]
  exact ⟨rfl, rfl, by rw [exec_encodeResult, wirePayload_eq_busBytes, hw]⟩

/-- Settles O22: reading and exponent are the remainder and the quotient of the bus word by 4096. -/
theorem decodeResultSplitsWord : Obligations.DecodeResultSplitsWord := by
  unfold Obligations.DecodeResultSplitsWord
  intro s b0 b1
  refine ⟨rfl, rfl, ?_⟩
  rw [exec_decodeResult, unpackRes, readingOf_eq, exponentOf_eq, wireWord_toNat]

/-- R72: the largest mantissa is the largest reading at the largest exponent, 4095 * 2^15. -/
theorem mantOf_le (r : BitVec 12) (e : BitVec 4) : (mantOf r e).toNat ≤ 0x7FF8000 := by
  have hr : r.toNat ≤ 4095 := Nat.le_of_lt_succ r.isLt
  have he : e.toNat ≤ 15 := Nat.le_of_lt_succ e.isLt
  calc (mantOf r e).toNat = r.toNat * 2 ^ e.toNat := mantOf_toNat r e
    _ ≤ 4095 * 2 ^ 15 := Nat.mul_le_mul hr (Nat.pow_le_pow_right (by decide) he)

/-- R71: the illuminance is the mantissa, which has not wrapped, times the scale. -/
theorem luxOf_eq_mantOf (scale : Rat) (r : BitVec 12) (e : BitVec 4) :
    luxOf scale r e = ((mantOf r e).toNat : Rat) * scale := by
  rw [luxOf, mantOf_toNat]

/-- Settles O23: 27 bits hold every mantissa. -/
theorem illuminanceIsExact : Obligations.IlluminanceIsExact := by
  unfold Obligations.IlluminanceIsExact
  intro s r e
  refine ⟨_, _, rfl, rfl, exec_illuminance r e s, ?_, mantOf_le _ _, luxOf_eq_mantOf _ _ _⟩
  rw [mantOf_toNat, BitVec.toNat_setWidth, BitVec.toNat_setWidth, fieldInput_toNat, fieldInput_toNat]

end Sys2Proof.Machine
end

section
/-! The register access commands (41_register_access.md R74 to R77) and the session commands that read a register
(42_session.md R80, R82, R84 to R86, R88): each is tied once to the access it makes, and the ends of that access give
the ends of the command. -/
namespace Sys2Proof.Machine

variable {s t : State} {a : BusAddr} {reg len : Byte} {r : DeviceReg} {w : Word} {evs wr : List Event} {d i : Nat}

/-! ## Accesses that raise CommError, or that follow other calls -/

theorem writeReg16_breaks (ha : s.devAddr = some a)
    (h : s.WriteBreaks 0 a [ptrByte s.params r.pointer, (wireBytes s.params w).1, (wireBytes s.params w).2] wr) :
    writeReg16 r w s = .commError (s.afterCalls wr) :=
  memWrite_breaks ha h

theorem readReg16_breaks (ha : s.devAddr = some a) (h : s.ReadBreaks 0 a r.pointer 2 evs d) :
    readReg16 r s = .commError ((s.afterCalls evs).takeDraws d) := by
  rw [readReg16, memRead_breaks ha h, BusResult.andThen]

theorem closes_afterCalls : (s.afterCalls evs).Closes 0 ↔ s.Closes evs.length := by
  simp only [State.Closes, returns_afterCalls, answer_afterCalls, Nat.zero_add, Nat.add_zero]

theorem writeEvents_afterCalls (bs : List Byte) :
    (s.afterCalls evs).writeEvents 0 a bs = s.writeEvents evs.length a bs := by
  simp only [State.writeEvents, answer_afterCalls, Nat.zero_add]

theorem writeBreaks_afterCalls {bs : List Byte} :
    (s.afterCalls evs).WriteBreaks 0 a bs wr ↔ s.WriteBreaks evs.length a bs wr := by
  simp only [State.WriteBreaks, returns_afterCalls, answer_afterCalls, writeEvents_afterCalls, Nat.zero_add,
    Nat.add_zero]

/-- The value `w` written after the calls `evs` and `d` draws. -/
theorem writeReg16_closes_afterCalls (ha : s.devAddr = some a) (h : s.Closes evs.length) :
    writeReg16 r w ((s.afterCalls evs).takeDraws d) = .done () ((s.afterCalls (evs ++ s.writeEvents evs.length a
      [ptrByte s.params r.pointer, (busBytes s.params w.toNat).1, (busBytes s.params w.toNat).2])).takeDraws d) := by
  rw [writeReg16_closes (s := (s.afterCalls evs).takeDraws d) ha (closes_afterCalls.2 h), afterCalls_takeDraws,
    afterCalls_append, ← wireBytes_eq_busBytes, ← writeEvents_afterCalls]
  rfl

theorem writeReg16_breaks_afterCalls (ha : s.devAddr = some a) (h : s.WriteBreaks evs.length a
      [ptrByte s.params r.pointer, (busBytes s.params w.toNat).1, (busBytes s.params w.toNat).2] wr) :
    writeReg16 r w ((s.afterCalls evs).takeDraws d) = .commError ((s.afterCalls (evs ++ wr)).takeDraws d) := by
  rw [← wireBytes_eq_busBytes] at h
  rw [writeReg16_breaks (s := (s.afterCalls evs).takeDraws d) ha (writeBreaks_afterCalls.2 h), afterCalls_takeDraws,
    afterCalls_append]

/-! ## WRITE_REGISTER and READ_REGISTER -/

theorem exec_writeRegister_done {data : List Byte} (h : memWrite reg data s = .done () t) :
    exec (.writeRegister reg data) s = .next (t.returnWith ⟨.ok, .none⟩) := by
  simp only [exec, execWriteRegister, h]
  rfl

theorem exec_writeRegister_commError {data : List Byte} (h : memWrite reg data s = .commError t) :
    exec (.writeRegister reg data) s = .next (t.returnWith ⟨.commError, .none⟩) := by
  simp only [exec, execWriteRegister, h]
  rfl

theorem exec_readRegister_done {bytes : List Byte} (h : memRead reg len s = .done bytes t) :
    exec (.readRegister reg len) s = .next (t.returnWith ⟨.ok, .data bytes⟩) := by
  simp only [exec, execReadRegister, h]
  rfl

theorem exec_readRegister_commError (h : memRead reg len s = .commError t) :
    exec (.readRegister reg len) s = .next (t.returnWith ⟨.commError, .none⟩) := by
  simp only [exec, execReadRegister, h]
  rfl

/-- Settles O26: MemWrite goes through, and its close status is the zero that `Closes` asks for. -/
theorem writeRegisterCompletes : Obligations.WriteRegisterCompletes := by
  unfold Obligations.WriteRegisterCompletes
  intro s a reg data ha hc
  rw [exec_writeRegister_done (memWrite_closes ha hc), writeEvents_closes hc]

/-- Settles O27: the four failures are the four disjuncts of `WriteBreaks`. -/
theorem writeRegisterFailures : Obligations.WriteRegisterFailures := by
  unfold Obligations.WriteRegisterFailures
  intro s a reg data ha fails
  have breaks {evs : List Event} (h : s.WriteBreaks 0 a (ptrByte s.params reg :: data) evs) : fails evs :=
    exec_writeRegister_commError (memWrite_breaks ha h)
  exact ⟨fun h0 => breaks (.inl ⟨h0, rfl⟩), fun h0 h1 => breaks (.inr (.inl ⟨h0, h1, rfl⟩)),
    fun h0 h1 h2 => breaks (.inr (.inr (.inl ⟨h0, h1, h2, rfl⟩))),
    fun h0 h1 h2 hst => breaks (.inr (.inr (.inr ⟨h0, h1, h2, hst, rfl⟩)))⟩

/-- Settles O28: MemRead receives every byte. -/
theorem readRegisterCompletes : Obligations.ReadRegisterCompletes := by
  unfold Obligations.ReadRegisterCompletes
  intro s a reg len ha hreads
  have ⟨hc, _, _⟩ := hreads
  rw [exec_readRegister_done (memRead_reads ha hreads), State.afterRead, State.readEvents, writeEvents_closes hc]
  rfl

/-- Settles O29: what the short MemRead leaves depends on the policy alone. -/
theorem readRegisterShortRead : Obligations.ReadRegisterShortRead := by
  unfold Obligations.ReadRegisterShortRead
  intro s a reg len i ha hi hc hreq hd havail hzero
  have hread := memRead_short (reg := reg) ha hi hc hreq hd havail hzero
  cases hp : s.params.shortReadPolicy <;> simp only [hp] at hread
  case tolerate => exact exec_readRegister_done hread
  case commError => exact exec_readRegister_commError hread

/-- Settles O30: each exception is a case of `ReadBreaks`; the buffer is drawn once the request has returned. -/
theorem readRegisterExceptions : Obligations.ReadRegisterExceptions := by
  unfold Obligations.ReadRegisterExceptions
  intro s a reg len ha hc sent
  have breaks {evs : List Event} {d : Nat} (h : s.ReadBreaks 0 a reg len evs d) :
      exec (.readRegister reg len) s = .next (((s.afterCalls evs).takeDraws d).returnWith ⟨.commError, .none⟩) :=
    exec_readRegister_commError (memRead_breaks ha h)
  have hsent : s.writeEvents 0 a [ptrByte s.params reg] = sent := writeEvents_closes hc a _
  refine ⟨fun hreq => breaks (.inr (.inl ⟨hc, hreq, by rw [hsent], rfl⟩)), fun i hi hreq hd => ?_⟩
  have loop {evs : List Event} (h : s.LoopBreaks 4 len.toNat evs) :=
    breaks (.inr (.inr ⟨hc, hreq, rfl, evs, h, by rw [hsent]⟩))
  exact ⟨fun havail => loop ⟨i, hi, hd, .inl ⟨havail, rfl⟩⟩,
    fun havail hne hbyte => loop ⟨i, hi, hd, .inr (.inl ⟨havail, hne, hbyte, rfl⟩)⟩⟩

/-! ## Session commands by the register read they make -/

/-- A command that reads register `r` and returns what `payload` makes of the word, and does nothing else. -/
def IsGetter (c : Instr) (r : DeviceReg) (payload : Params → Word → Payload) : Prop :=
  ∀ s, exec c s = (readReg16 r s).finish id fun w t => returnOk t (payload t.params w)

theorem readConfig_isGetter : IsGetter .readConfig .configuration fun _ w => .config (unpackCfg w) :=
  fun _ => rfl

theorem getIlluminance_isGetter :
    IsGetter .getIlluminance .result fun p w => luxPayload p.luxScale (readingOf w) (exponentOf w) :=
  fun _ => rfl

theorem getHighLimit_isGetter : IsGetter .getHighLimit .highLimit fun _ w => unpackRes w := fun _ => rfl

theorem getLowLimit_isGetter : IsGetter .getLowLimit .lowLimit fun _ w => unpackRes w := fun _ => rfl

theorem IsGetter.done {c : Instr} {payload : Params → Word → Payload} (hc : IsGetter c r payload)
    (h : readReg16 r s = .done w t) : exec c s = .next (t.returnWith ⟨.ok, payload t.params w⟩) := by
  rw [hc, h]
  rfl

theorem IsGetter.commError {c : Instr} {payload : Params → Word → Payload} (hc : IsGetter c r payload)
    (h : readReg16 r s = .commError t) : exec c s = .next (t.returnWith ⟨.commError, .none⟩) := by
  rw [hc, h]
  rfl

theorem exec_checkComms_commError (h : readReg16 .manufacturerId s = .commError t) :
    exec .checkComms s = .next ((t.setSess .addressed).returnWith ⟨.commError, .none⟩) := by
  simp only [exec, execCheckComms, h]
  rfl

theorem exec_checkComms_match (h : readReg16 .manufacturerId s = .done w t) (hw : w = t.params.mfrIdExpected) :
    exec .checkComms s = .next
      ((t.setSess (if t.sess = .addressed then .verified else t.sess)).returnWith ⟨.ok, .none⟩) := by
  simp only [exec, execCheckComms, h, BusResult.finish, if_neg (not_not_intro hw), advanceVerified_eq]
  rfl

theorem exec_checkComms_mismatch (h : readReg16 .manufacturerId s = .done w t) (hw : w ≠ t.params.mfrIdExpected) :
    exec .checkComms s = .next ((t.setSess .addressed).returnWith ⟨.identityMismatch, .none⟩) := by
  simp only [exec, execCheckComms, h, BusResult.finish, if_pos hw]
  rfl

section
variable {raw : Byte}

theorem exec_begin_commError (h : readReg16 .manufacturerId (s.address raw) = .commError t) :
    exec (.beginSession raw) s = .next (t.returnWith ⟨.commError, .none⟩) := by
  simp only [exec, execBegin, h]
  rfl

theorem exec_begin_mismatch (h : readReg16 .manufacturerId (s.address raw) = .done w t)
    (hw : w ≠ t.params.mfrIdExpected) :
    exec (.beginSession raw) s = .next (t.returnWith ⟨.identityMismatch, .none⟩) := by
  simp only [exec, execBegin, h, BusResult.finish, if_pos hw]
  rfl

theorem exec_begin_match (h : readReg16 .manufacturerId (s.address raw) = .done w t)
    (hw : w = t.params.mfrIdExpected) :
    exec (.beginSession raw) s = (writeReg16 .configuration t.softCfg (t.setSess .verified)).finish id
      fun _ u => returnOk (u.setSess .configured) .none := by
  simp only [exec, execBegin, h, BusResult.finish, if_neg (not_not_intro hw)]

/-- BEGIN after an identity read that matched: its configuration write goes through (R82). -/
theorem exec_begin_write_closes
    (h : readReg16 .manufacturerId (s.address raw) = .done w (((s.address raw).afterCalls evs).takeDraws d))
    (hw : w = s.params.mfrIdExpected) (hc : s.Closes evs.length) :
    let b := busBytes s.params s.softCfg.toNat
    exec (.beginSession raw) s = .next (((((s.setDevAddr (normAddr s.params raw)).setSess .configured).afterCalls
      (evs ++ s.writeEvents evs.length (normAddr s.params raw) [ptrByte s.params 0x01, b.1, b.2])).takeDraws
        d).returnWith ⟨.ok, .none⟩) := by
  have hwrite := writeReg16_closes_afterCalls (r := .configuration) (w := s.softCfg) (d := d)
    (s := (s.setDevAddr (normAddr s.params raw)).setSess .verified) rfl hc
  rw [exec_begin_match h hw]
  exact congrArg (BusResult.finish · id _) hwrite

/-- BEGIN after an identity read that matched: its configuration write fails (R82, D10). -/
theorem exec_begin_write_breaks
    (h : readReg16 .manufacturerId (s.address raw) = .done w (((s.address raw).afterCalls evs).takeDraws d))
    (hw : w = s.params.mfrIdExpected) :
    let b := busBytes s.params s.softCfg.toNat
    s.WriteBreaks evs.length (normAddr s.params raw) [ptrByte s.params 0x01, b.1, b.2] wr →
    exec (.beginSession raw) s = .next (((((s.setDevAddr (normAddr s.params raw)).setSess .verified).afterCalls
      (evs ++ wr)).takeDraws d).returnWith ⟨.commError, .none⟩) := by
  intro b hb
  have hwrite := writeReg16_breaks_afterCalls (r := .configuration) (w := s.softCfg) (d := d)
    (s := (s.setDevAddr (normAddr s.params raw)).setSess .verified) rfl hb
  rw [exec_begin_match h hw]
  exact congrArg (BusResult.finish · id _) hwrite

end

/-! ## An address phase that fails -/

/-- Settles O31: a non-zero close status is the last disjunct of `WriteBreaks`, so every read raises CommError. -/
theorem addressPhaseFailureStopsRead : Obligations.AddressPhaseFailureStopsRead := by
  unfold Obligations.AddressPhaseFailureStopsRead
  intro s h0 h1 h2 hst after
  have breaks (a : BusAddr) (bs : List Byte) : s.WriteBreaks 0 a bs (s.writeEvents 0 a bs) :=
    .inr (.inr (.inr ⟨h0, h1, h2, hst, rfl⟩))
  refine ⟨fun a ha => ?_, fun raw => ?_⟩
  · have read (r : DeviceReg) := readReg16_breaks (r := r) ha (.inl ⟨breaks a _, rfl⟩)
    exact ⟨fun reg len => exec_readRegister_commError (memRead_writeBreaks ha (breaks a _)),
      readConfig_isGetter.commError (read _), getIlluminance_isGetter.commError (read _),
      getHighLimit_isGetter.commError (read _), getLowLimit_isGetter.commError (read _),
      exec_checkComms_commError (read _)⟩
  · exact exec_begin_commError
      (readReg16_breaks (s := s.address raw) rfl (.inl ⟨breaks (normAddr s.params raw) _, rfl⟩))

/-! ## A register read that stops short -/

/-- A register read whose first call gets answer 0 receives `i` of its two bytes, and then the count is zero (R75). -/
structure State.StopsShort (s : State) (i : Nat) : Prop where
  lt : i < 2
  closes : s.Closes 0
  requests : s.Returns 3
  delivers : s.Delivers 4 i
  counts : s.Returns (4 + 2 * i)
  zero : (s.answer (4 + 2 * i)).avail = 0

/-- The word of the bytes received and of drawn bytes, in wire order (R75, R63). -/
def State.shortWord (s : State) (i : Nat) : Word :=
  wireWord s.params (if i = 0 then Config.freeByte s.draws else (s.answer 5).byte) (Config.freeByte (s.draws + 1))

/-- The events of such a read at pointer `ptr` (R75). -/
def State.shortEvents (s : State) (i : Nat) (a : BusAddr) (ptr : Byte) : List Event :=
  .beginTxn a :: .write [ptrByte s.params ptr] :: .endTxn 0 :: .request a 2 :: (s.pairEvents 4 i ++ [Event.avail 0])

theorem shortEvents_length (s : State) (i : Nat) (a : BusAddr) (ptr : Byte) :
    (s.shortEvents i a ptr).length = 5 + 2 * i := by
  simp only [State.shortEvents, List.length_append, pairEvents_length, List.length_cons, List.length_nil]
  omega

/-- BEGIN's addressing takes no answer. -/
theorem State.StopsShort.address (h : s.StopsShort i) (raw : Byte) : (s.address raw).StopsShort i :=
  ⟨h.lt, h.closes, h.requests, h.delivers, h.counts, h.zero⟩

theorem readReg16_stopsShort_tolerate (ha : s.devAddr = some a) (h : s.StopsShort i)
    (hp : s.params.shortReadPolicy = .tolerate) (r : DeviceReg) :
    readReg16 r s = .done (s.shortWord i) ((s.afterCalls (s.shortEvents i a r.pointer)).takeDraws 2) := by
  rw [readReg16_short ha h.lt h.closes h.requests h.delivers h.counts h.zero, hp]
  rfl

theorem readReg16_stopsShort_commError (ha : s.devAddr = some a) (h : s.StopsShort i)
    (hp : s.params.shortReadPolicy = .commError) (r : DeviceReg) :
    readReg16 r s = .commError ((s.afterCalls (s.shortEvents i a r.pointer)).takeDraws 2) := by
  rw [readReg16_short ha h.lt h.closes h.requests h.delivers h.counts h.zero, hp]
  rfl

/-- Settles O46: under either policy the short read has one end, from which each command goes on. -/
theorem sessionGetterShortRead : Obligations.SessionGetterShortRead := by
  unfold Obligations.SessionGetterShortRead
  intro s i hi hc hreq hd havail hzero b0 w read ends
  have hshort : s.StopsShort i := ⟨hi, hc, hreq, hd, havail, hzero⟩
  refine ⟨fun hp => ⟨fun a ha => ?_, fun raw => ?_⟩, fun hp => ⟨fun a ha => ?_, fun raw => ?_⟩⟩
  · have word := readReg16_stopsShort_tolerate ha hshort hp
    exact ⟨readConfig_isGetter.done (word _), getIlluminance_isGetter.done (word _),
      getHighLimit_isGetter.done (word _), getLowLimit_isGetter.done (word _), exec_checkComms_match (word _),
      exec_checkComms_mismatch (word _)⟩
  · have word := readReg16_stopsShort_tolerate (s := s.address raw) rfl (hshort.address raw) hp .manufacturerId
    have hlen := shortEvents_length (s.address raw) i (normAddr s.params raw) DeviceReg.manufacturerId.pointer
    refine ⟨exec_begin_mismatch word, fun hw hclose => ?_, fun hw evs hbreaks => ?_⟩
    · rw [← hlen] at hclose
      have := exec_begin_write_closes word hw hclose
      rwa [hlen] at this
    · rw [← hlen] at hbreaks
      exact exec_begin_write_breaks word hw hbreaks
  · have raised := readReg16_stopsShort_commError ha hshort hp
    exact ⟨readConfig_isGetter.commError (raised _), getIlluminance_isGetter.commError (raised _),
      getHighLimit_isGetter.commError (raised _), getLowLimit_isGetter.commError (raised _),
      exec_checkComms_commError (raised _)⟩
  · exact exec_begin_commError
      (readReg16_stopsShort_commError (s := s.address raw) rfl (hshort.address raw) hp .manufacturerId)

/-! ## The frame of the plain access commands -/

/-- However its calls ended, a command's calls change the transport records alone. -/
theorem OkOrComm.eq_afterCalls {c : Instr} {b n : Nat} {u : State} {res : Response} (h : OkOrComm c a b n s u res) :
    ∃ evs d, u = (s.afterCalls evs).takeDraws d := by
  obtain ⟨⟨evs, d, hu, -⟩, -⟩ | ⟨⟨evs, d, hu, -⟩, -⟩ := h <;> exact ⟨evs, d, hu⟩

/-- Settles O47: without an address the model fault is entered; with one the command makes calls and responds. -/
theorem framePlainAccessCommands : Obligations.FramePlainAccessCommands := by
  unfold Obligations.FramePlainAccessCommands
  intro c s t hplain he
  cases ha : s.devAddr with
  | none =>
    rw [exec_unaddressed (plainAccess_needsAddress hplain) ha] at he
    cases he
    exact ⟨rfl, rfl, ha, rfl, rfl, rfl, rfl, absurd rfl, fun _ => ⟨rfl, rfl⟩⟩
  | some a =>
    obtain ⟨u, res, hexec, hends⟩ := plainAccess_ends hplain ha
    obtain ⟨evs, d, rfl⟩ := hends.eq_afterCalls
    rw [hexec] at he
    cases he
    exact ⟨rfl, rfl, ha, rfl, rfl, rfl, rfl, fun _ => rfl, nofun⟩

end Sys2Proof.Machine
end

section
/-! The session invariant (42_session.md R90; 10_state.md R13; 30_encoding.md R53): the normalised addresses, what a
command does to the registers the invariant speaks of, and the induction over a run. -/
namespace Sys2Proof.Machine

/-! ## Normalised addresses -/

/-- R34, R35: the raw input's two low bits choose among the four addresses. -/
theorem normAddr_toNat {p : Params} (hp : Params.SpecAddr p) (raw : Byte) :
    (normAddr p raw).toNat = 0x44 + raw.toNat % 4 := by
  obtain ⟨hbase, hmask, hwidth⟩ := hp
  have hsel : raw.toNat &&& 3 = raw.toNat % 4 := Nat.and_two_pow_sub_one_eq_mod raw.toNat 2
  have hor : 0x44 ||| raw.toNat % 4 = 0x44 + raw.toNat % 4 :=
    (Nat.two_pow_add_eq_or_of_lt (i := 2) (Nat.mod_lt _ (by decide)) 17).symm
  rw [normAddr, trunc_toNat, hbase, hmask, hwidth, BitVec.toNat_or, BitVec.toNat_and]
  change (0x44 ||| (raw.toNat &&& 3)) % 2 ^ 7 = _
  rw [hsel, hor]
  omega

theorem legalAddr_iff {a : BusAddr} :
    LegalAddr a ↔ a.toNat = 0x44 ∨ a.toNat = 0x45 ∨ a.toNat = 0x46 ∨ a.toNat = 0x47 := by
  simp only [LegalAddr, ← BitVec.toNat_inj]
  rfl

theorem legalAddr_normAddr {p : Params} (hp : Params.SpecAddr p) (raw : Byte) : LegalAddr (normAddr p raw) := by
  rw [legalAddr_iff, normAddr_toNat hp]
  omega

/-- Settles O32: the address bit by bit, and by arithmetic under R34's parameters. -/
theorem setAddressNormalises : Obligations.SetAddressNormalises := by
  unfold Obligations.SetAddressNormalises
  intro s raw a
  refine ⟨fun n _ => ?_, fun hp => ⟨normAddr_toNat hp raw, legalAddr_normAddr hp raw⟩, rfl, rfl, rfl⟩
  simp only [a, normAddr, trunc_getLsbD, BitVec.getLsbD_or, BitVec.getLsbD_and]

/-! ## The registers part of the invariant -/

/-- What the invariant says of `sess` and `dev_addr`; it holds while a command is in progress, too. -/
structure State.Registers (s : State) : Prop where
  unstarted_iff : s.devAddr = none ↔ s.sess = .unstarted
  normal_addr : ∀ a, s.devAddr = some a → ∃ raw, a = normAddr s.params raw

theorem State.inv_iff {s : State} : s.Inv ↔ s.Registers ∧ s.busy = false := by
  refine ⟨fun h => ⟨⟨h.unstarted_iff, h.normal_addr⟩, h.not_busy⟩, fun ⟨h, hbusy⟩ => ?_⟩
  refine ⟨h.unstarted_iff, h.normal_addr, fun hp a ha => ?_, hbusy⟩
  obtain ⟨raw, rfl⟩ := h.normal_addr a ha
  exact legalAddr_normAddr hp raw

/-- Settles O3: reset leaves no address and `Unstarted`. -/
theorem resetMeetsSessionInvariant : Obligations.ResetMeetsSessionInvariant := by
  unfold Obligations.ResetMeetsSessionInvariant
  intro p
  exact State.inv_iff.2 ⟨⟨iff_of_true rfl rfl, nofun⟩, rfl⟩

/-! ## Moves of the session-state table -/

section
variable {i : Instr} {u v : SessState} {evs : List Event} {st : Status}

/-- No row of R90 leads back to `Unstarted`. -/
theorem SessMove.unstarted (h : SessMove i u evs st v) (hv : v = .unstarted) : u = .unstarted := by
  subst hv
  cases i
  case checkComms => cases st <;> grind [SessMove]
  case applyConfig => cases st <;> grind [SessMove]
  case beginSession => cases st <;> grind [SessMove]
  case setAddress => cases h
  all_goals exact h.symm

/-- A command that writes `dev_addr` leaves `Unstarted`. -/
theorem SessMove.ne_unstarted_of_addressing (h : SessMove i u evs st v) {raw : Byte}
    (hi : i = .setAddress raw ∨ i = .beginSession raw) : v ≠ .unstarted := by
  rintro rfl
  rcases hi with rfl | rfl
  · cases h
  · cases st <;> grind [SessMove]

/-- A command that neither needs an address nor writes one keeps `sess`. -/
theorem SessMove.kept (h : SessMove i u evs st v) (hneeds : ¬ NeedsAddress i = true)
    (hi : ∀ raw, i ≠ .setAddress raw ∧ i ≠ .beginSession raw) : v = u := by
  cases i
  case setAddress raw => exact absurd rfl (hi raw).1
  case beginSession raw => exact absurd rfl (hi raw).2
  case checkComms => exact absurd rfl hneeds
  case applyConfig => exact absurd rfl hneeds
  all_goals exact h

end

/-! ## Commands, steps and runs -/

section
variable {i : Instr} {s t : State} {a : Option BusAddr} {evs : List Event} {d : Nat} {v : SessState} {w : Word}
  {res : Response}

theorem Ran.sess_eq (h : Ran i s t a evs d v w res) : t.sess = v := by
  rw [h.state, State.returnWith_sess, State.setSoftCfg_sess, State.setSess_sess]

theorem Ran.busy_eq (h : Ran i s t a evs d v w res) : t.busy = false := by
  rw [h.state, State.returnWith_busy]

/-- A command that does not fault keeps the registers' part of the invariant, by the row of R90 it takes. -/
theorem Ran.registers (h : Ran i s t a evs d v w res) (hran : ¬ (NeedsAddress i = true ∧ s.devAddr = none))
    (hs : s.Registers) : t.Registers := by
  constructor <;> rw [h.devAddr_eq]
  · rw [h.sess_eq]
    obtain ⟨rfl, hi⟩ | ⟨raw, hi, rfl⟩ := h.addr
    · refine ⟨fun ha => ?_, fun hv => hs.unstarted_iff.2 (h.move.unstarted hv)⟩
      rw [h.move.kept (fun hneeds => hran ⟨hneeds, ha⟩) hi]
      exact hs.unstarted_iff.1 ha
    · exact iff_of_false nofun (h.move.ne_unstarted_of_addressing hi)
  · rw [h.params_eq]
    obtain ⟨rfl, -⟩ | ⟨raw, -, rfl⟩ := h.addr
    · exact hs.normal_addr
    · exact fun b hb => ⟨raw, (Option.some.inj hb).symm⟩

theorem exec_registers (he : exec i s = .next t) (hs : s.Registers) : t.Registers := by
  obtain ⟨-, -, rfl⟩ | ⟨hran, a, evs, d, v, w, res, h⟩ := exec_cases he
  · exact ⟨hs.unstarted_iff, hs.normal_addr⟩
  · exact h.registers hran hs

/-- A command that has run, or met the model fault, is no longer in progress (R53, R95). -/
theorem exec_busy (he : exec i s = .next t) : t.busy = false := by
  obtain ⟨-, -, rfl⟩ | ⟨-, a, evs, d, v, w, res, h⟩ := exec_cases he
  · rfl
  · exact h.busy_eq

end

/-- Settles O4: a step idles, refuses, or runs a command that it accepted; accepting one writes `busy` alone. -/
theorem stepKeepsSessionInvariant : Obligations.StepKeepsSessionInvariant := by
  unfold Obligations.StepKeepsSessionInvariant
  intro s t hs hstep
  obtain ⟨hreg, hbusy⟩ := State.inv_iff.1 hs
  obtain ⟨-, rfl⟩ | ⟨e, -, rfl⟩ | ⟨i, rest, -, he⟩ := step_next hstep
  · exact hs
  · exact State.inv_iff.2 ⟨⟨hreg.unstarted_iff, hreg.normal_addr⟩, hbusy⟩
  · have haccept : (s.accept rest).Registers := ⟨hreg.unstarted_iff, hreg.normal_addr⟩
    exact State.inv_iff.2 ⟨exec_registers he haccept, exec_busy he⟩

/-- What every step keeps holds after a run. -/
theorem run_keeps {P : State → Prop} (hstep : ∀ s t, P s → step s = .next t → P t) {n : Nat} {s t : State}
    (hs : P s) (hrun : core.run n s = .next t) : P t := by
  induction n generalizing s with
  | zero =>
    cases hrun
    exact hs
  | succ n ih =>
    simp only [Host.Core.run] at hrun
    split at hrun
    · next u hu => exact ih (hstep s u hs hu) hrun
    · cases hrun
    · cases hrun

/-- Settles O5: laying commands and answers ready writes no register, and every step keeps the invariant. -/
theorem everyRunKeepsSessionInvariant : Obligations.EveryRunKeepsSessionInvariant := by
  unfold Obligations.EveryRunKeepsSessionInvariant
  intro p port script n t hrun
  obtain ⟨hiff, hnormal, hlegal, hbusy⟩ := resetMeetsSessionInvariant p
  have hstart : State.Inv { State.resetWith p with port := port, script := script } :=
    ⟨hiff, hnormal, hlegal, hbusy⟩
  exact run_keeps stepKeepsSessionInvariant hstart hrun

end Sys2Proof.Machine
end

section
/-! That every command has a next state, what it moves `sess` to and what it leaves unchanged (42_session.md R79 to R82,
R90, R92; 60_exceptions.md R95): by the kinds of command, and from the inversion lemma `exec_cases`. -/
namespace Sys2Proof.Machine

variable {i : Instr} {s t : State}

/-! ## A next state for every command -/

theorem exec_next_of_held (h : NeedsAddress i = true → ∃ a, s.devAddr = some a) : ∃ t, exec i s = .next t := by
  obtain hi | hi | ⟨raw, rfl⟩ | rfl | rfl | ⟨raw, rfl⟩ | ⟨sel, f, rfl⟩ := instr_kinds i
  · obtain ⟨p, -, he⟩ := codec_next (s := s) hi
    exact ⟨_, he⟩
  · obtain ⟨a, ha⟩ := h (plainAccess_needsAddress hi)
    obtain ⟨u, res, he, -⟩ := plainAccess_ends hi ha
    exact ⟨_, he⟩
  · exact ⟨_, rfl⟩
  · obtain ⟨a, ha⟩ := h rfl
    obtain ⟨u, v, res, he, -⟩ := checkComms_ends ha
    exact ⟨_, he⟩
  · obtain ⟨a, ha⟩ := h rfl
    obtain ⟨u, v, res, he, -⟩ := applyConfig_ends ha
    exact ⟨_, he⟩
  · obtain ⟨b, u, v, res, -, he, -⟩ := beginSession_ends s raw
    exact ⟨_, he⟩
  · exact ⟨_, rfl⟩

/-- Settles O16: a command that needs an address and has none enters the model fault; every other one responds. -/
theorem everyCommandHasAMove : Obligations.EveryCommandHasAMove := by
  unfold Obligations.EveryCommandHasAMove
  intro i s
  by_cases hfault : NeedsAddress i = true ∧ s.devAddr = none
  · exact ⟨_, exec_unaddressed hfault.1 hfault.2, fun _ _ => rfl⟩
  · have held (hneeds : NeedsAddress i = true) : ∃ a, s.devAddr = some a :=
      Option.ne_none_iff_exists'.1 fun hnone => hfault ⟨hneeds, hnone⟩
    obtain ⟨t, he⟩ := exec_next_of_held held
    exact ⟨t, he, fun hneeds hnone => absurd ⟨hneeds, hnone⟩ hfault⟩

/-! ## Frames -/

/-- No command writes the refusal mark or what the host still has to present. -/
theorem exec_refused_port (he : exec i s = .next t) : t.refused = s.refused ∧ t.port = s.port := by
  obtain ⟨-, -, rfl⟩ | ⟨-, a, evs, d, v, w, res, h⟩ := exec_cases he
  · exact ⟨rfl, rfl⟩
  · rw [h.state]
    exact ⟨rfl, rfl⟩

/-- R95: only a command that needs an address and has none writes the fault mark. -/
theorem exec_fault (he : exec i s = .next t) (hran : ¬ (NeedsAddress i = true ∧ s.devAddr = none)) :
    t.fault = s.fault := by
  obtain ⟨hneeds, hnone, -⟩ | ⟨-, a, evs, d, v, w, res, h⟩ := exec_cases he
  · exact absurd ⟨hneeds, hnone⟩ hran
  · rw [h.state]
    rfl

theorem exec_devAddr_of_addressing {raw : Byte} (he : exec i s = .next t)
    (hi : i = .setAddress raw ∨ i = .beginSession raw) : t.devAddr = some (normAddr s.params raw) := by
  obtain ⟨hneeds, -⟩ | ⟨-, a, evs, d, v, w, res, h⟩ := exec_cases he
  · rcases hi with rfl | rfl <;> cases hneeds
  · rw [h.devAddr_eq]
    obtain ⟨-, hother⟩ | ⟨raw', hi', ha⟩ := h.addr
    · exact absurd hi (not_or.2 (hother raw))
    · have hraw : raw' = raw := by rcases hi with rfl | rfl <;> simpa [eq_comm] using hi'
      rw [ha, hraw]

/-- Settles O48: neither command is one of those that write `soft_cfg` or `dev_addr`. -/
theorem frameVerifyAndApply : Obligations.FrameVerifyAndApply := by
  unfold Obligations.FrameVerifyAndApply
  intro i s t hi he
  have hneeds : NeedsAddress i = true := by rcases hi with rfl | rfl <;> rfl
  have hcfg : ¬ ∃ sel f, i = .setConfig sel f := by rcases hi with rfl | rfl <;> simp
  have haddr : ¬ ∃ raw, (i = .setAddress raw ∨ i = .beginSession raw) ∧ t.devAddr = some (normAddr s.params raw) := by
    rcases hi with rfl | rfl <;> simp
  obtain ⟨hrefused, hport⟩ := exec_refused_port he
  refine ⟨exec_params he, (exec_devAddr he).resolve_right haddr, (exec_softCfg he).resolve_right hcfg, hrefused,
    hport, exec_busy he, fun hheld => exec_fault he fun h => hheld h.2, fun hnone => ?_⟩
  rw [exec_unaddressed hneeds hnone] at he
  cases he
  exact ⟨rfl, rfl, rfl⟩

/-- Settles O49: both leave the normalised address, and neither needs one to be held before. -/
theorem frameAddressAndBegin : Obligations.FrameAddressAndBegin := by
  unfold Obligations.FrameAddressAndBegin
  intro i raw s t hi he
  have hneeds : ¬ NeedsAddress i = true := by rcases hi with rfl | rfl <;> exact Bool.false_ne_true
  have hcfg : ¬ ∃ sel f, i = .setConfig sel f := by rcases hi with rfl | rfl <;> simp
  obtain ⟨hrefused, hport⟩ := exec_refused_port he
  exact ⟨exec_devAddr_of_addressing he hi, exec_params he, (exec_softCfg he).resolve_right hcfg,
    exec_fault he fun h => hneeds h.1, hrefused, hport, exec_busy he⟩

/-! ## The session-state table -/

theorem lastStatus_returnWith (s : State) (r : Response) : (s.returnWith r).lastStatus = some r.status := by
  rw [State.lastStatus, State.returnWith_responses, List.getLast?_concat, Option.map_some]

/-- Settles O53: a command that runs takes its row of the table, and no row leads back to `Unstarted`. -/
theorem sessionMovesFollowTable : Obligations.SessionMovesFollowTable := by
  unfold Obligations.SessionMovesFollowTable
  intro i s t he
  obtain ⟨hneeds, hnone, rfl⟩ | ⟨hran, a, evs, d, v, w, res, h⟩ := exec_cases he
  · rw [if_pos ⟨hneeds, hnone⟩]
    exact ⟨id, rfl, rfl⟩
  · have hlast : t.lastStatus = some res.status := by rw [h.state, lastStatus_returnWith]
    rw [if_neg hran, h.sess_eq]
    exact ⟨h.move.unstarted, evs, res.status, h.appends.hist, hlast, h.move⟩

end Sys2Proof.Machine
end

section
/-! The session commands by the register access they make (42_session.md R80 to R82, R84 to R89): the ends of the
access give the ends of the command. -/
namespace Sys2Proof.Machine

variable {s t : State} {a : BusAddr} {r : DeviceReg} {w : Word} {evs : List Event}

/-! ## CHECK_COMMS -/

/-- Settles O33: the identity read goes through and its word is the expected one. -/
theorem checkCommsVerifies : Obligations.CheckCommsVerifies := by
  unfold Obligations.CheckCommsVerifies
  intro s a ha hreads hid
  exact exec_checkComms_match (readReg16_reads ha hreads) hid

/-- Settles O34: the identity read goes through and its word is another one. -/
theorem checkCommsRejectsOtherIdentity : Obligations.CheckCommsRejectsOtherIdentity := by
  unfold Obligations.CheckCommsRejectsOtherIdentity
  intro s a ha hreads hid
  exact exec_checkComms_mismatch (readReg16_reads ha hreads) hid

/-! ## APPLY_CONFIG -/

theorem exec_applyConfig_done (h : writeReg16 .configuration s.softCfg s = .done () t) :
    exec .applyConfig s = .next ((t.setSess
      (if t.sess = .verified ∨ t.sess = .configured then .configured else t.sess)).returnWith ⟨.ok, .none⟩) := by
  simp only [exec, execApplyConfig, h, BusResult.finish, advanceConfigured_eq]
  rfl

theorem exec_applyConfig_commError (h : writeReg16 .configuration s.softCfg s = .commError t) :
    exec .applyConfig s = .next ((t.setSess
      (if t.sess = .configured then .verified else t.sess)).returnWith ⟨.commError, .none⟩) := by
  simp only [exec, execApplyConfig, h, BusResult.finish, dropConfigured_eq]
  rfl

/-- A register write that goes through, its bytes by arithmetic (R40, R63). -/
theorem writeReg16_closes_busBytes (ha : s.devAddr = some a) (hc : s.Closes 0) {n : Nat} (hw : w.toNat = n) :
    writeReg16 r w s = .done () (s.afterCalls
      [.beginTxn a, .write [ptrByte s.params r.pointer, (busBytes s.params n).1, (busBytes s.params n).2],
        .endTxn 0]) := by
  rw [writeReg16_closes ha hc, writeEvents_closes hc, wireBytes_eq_busBytes, hw]

/-- Settles O35: the write of `soft_cfg` goes through. -/
theorem applyConfigPushesSoftConfig : Obligations.ApplyConfigPushesSoftConfig := by
  unfold Obligations.ApplyConfigPushesSoftConfig
  intro s a ha hc b
  exact exec_applyConfig_done (writeReg16_closes_busBytes ha hc rfl)

/-- Settles O36: the write of `soft_cfg` breaks, in any of the ways of `WriteBreaks`. -/
theorem applyConfigFailureDropsConfigured : Obligations.ApplyConfigFailureDropsConfigured := by
  unfold Obligations.ApplyConfigFailureDropsConfigured
  intro s a ha b evs hbreaks
  rw [show b = wireBytes s.params s.softCfg from (wireBytes_eq_busBytes _ _).symm] at hbreaks
  exact exec_applyConfig_commError (writeReg16_breaks ha hbreaks)

/-! ## BEGIN -/

/-- BEGIN's identity read goes through; addressing takes no answer, so the answers are those of `s`. -/
theorem begin_identity_reads (raw : Byte) (h : s.Reads 0 2) :
    readReg16 .manufacturerId (s.address raw) = .done (s.wordFrom 0)
      (((s.address raw).afterCalls (s.readEvents 0 (normAddr s.params raw) 0x7E 2)).takeDraws 2) :=
  readReg16_reads (s := s.address raw) rfl h

/-- Settles O37: after the eight calls of the identity read the configuration write goes through. -/
theorem beginConfigures : Obligations.BeginConfigures := by
  unfold Obligations.BeginConfigures
  intro s raw hreads hid hc a b
  rw [← writeEvents_closes hc]
  exact exec_begin_write_closes (begin_identity_reads raw hreads) hid hc

/-- Settles O38: BEGIN ends at the identity read, whose word is another one. -/
theorem beginStopsAtOtherIdentity : Obligations.BeginStopsAtOtherIdentity := by
  unfold Obligations.BeginStopsAtOtherIdentity
  intro s raw hreads hid a
  exact exec_begin_mismatch (begin_identity_reads raw hreads) hid

/-- Settles O39: the identity read breaks; or it goes through, and the write that follows its eight calls breaks. -/
theorem beginTransportFailures : Obligations.BeginTransportFailures := by
  unfold Obligations.BeginTransportFailures
  intro s raw a b
  refine ⟨fun evs d hbreaks => ?_, fun hreads hid evs hbreaks => ?_⟩
  · exact exec_begin_commError (readReg16_breaks (s := s.address raw) rfl hbreaks)
  · exact exec_begin_write_breaks (begin_identity_reads raw hreads) hid hbreaks

/-! ## The getters -/

theorem unpackRes_eq (w : Word) :
    unpackRes w = .result (BitVec.ofNat 12 (w.toNat % 4096)) (BitVec.ofNat 4 (w.toNat / 4096)) := by
  rw [unpackRes, readingOf_eq, exponentOf_eq]

/-- R71, R85: the mantissa of a Result Word by arithmetic on the word. -/
theorem mantOf_word_toNat (w : Word) :
    (mantOf (readingOf w) (exponentOf w)).toNat = w.toNat % 4096 * 2 ^ (w.toNat / 4096) := by
  have hw : w.toNat / 4096 % 2 ^ 4 = w.toNat / 4096 := by omega
  rw [mantOf_toNat, readingOf_eq, exponentOf_eq, BitVec.toNat_ofNat, BitVec.toNat_ofNat, hw, Nat.mod_mod]

/-- Settles O42: READ_CONFIG is a getter, and its read goes through. -/
theorem readConfigReturnsDeviceFields : Obligations.ReadConfigReturnsDeviceFields := by
  unfold Obligations.ReadConfigReturnsDeviceFields
  intro s a ha hreads
  exact readConfig_isGetter.done (readReg16_reads ha hreads)

/-- Settles O43: GET_ILLUMINANCE is a getter, and 27 bits hold the mantissa of every word. -/
theorem getIlluminanceReadsResult : Obligations.GetIlluminanceReadsResult := by
  unfold Obligations.GetIlluminanceReadsResult
  intro s a ha hreads
  exact ⟨_, _, getIlluminance_isGetter.done (readReg16_reads ha hreads), mantOf_word_toNat _, luxOf_eq_mantOf _ _ _⟩

/-- Settles O44: both are getters, of the registers at these pointers. -/
theorem limitGettersReadTheirRegister : Obligations.LimitGettersReadTheirRegister := by
  unfold Obligations.LimitGettersReadTheirRegister
  intro s a ha hreads p
  have hp : p = unpackRes (s.wordFrom 0) := (unpackRes_eq _).symm
  rw [hp]
  exact ⟨getHighLimit_isGetter.done (readReg16_reads ha hreads), getLowLimit_isGetter.done (readReg16_reads ha hreads)⟩

/-! ## The limit setters -/

/-- A limit register write that goes through, of the packed Result Word by arithmetic (R60, R87, R89). -/
theorem setLimit_closes (ha : s.devAddr = some a) (hc : s.Closes 0) (r e : Word) (reg : DeviceReg) :
    let b := busBytes s.params (inputValue s.params r % 4096 + inputValue s.params e % 16 * 4096)
    setLimit reg r e s = .next ((s.afterCalls
      [.beginTxn a, .write [ptrByte s.params reg.pointer, b.1, b.2], .endTxn 0]).returnWith ⟨.ok, .none⟩) := by
  intro b
  have hw : (packRes (fieldInput s.params r) (fieldInput s.params e)).toNat =
      inputValue s.params r % 4096 + inputValue s.params e % 16 * 4096 := by
    rw [packRes_toNat, fieldInput_toNat, fieldInput_toNat]
  rw [setLimit, writeReg16_closes_busBytes ha hc hw]
  rfl

/-- Settles O45: both write the packed word, to the registers at these pointers. -/
theorem limitSettersWriteTheirRegister : Obligations.LimitSettersWriteTheirRegister := by
  unfold Obligations.LimitSettersWriteTheirRegister
  intro s a r e ha hc b after
  exact ⟨setLimit_closes ha hc r e .highLimit, setLimit_closes ha hc r e .lowLimit⟩

end Sys2Proof.Machine
end

section
/-! SET_CONFIG (42_session.md R83; 30_encoding.md R54, R61): what it does to each field of `soft_cfg`. -/
namespace Sys2Proof.Machine

/-- A field of the new word all of whose bits are governed by one select bit (R83). -/
theorem extract_updateCfg {k pos n j : Nat} {cfg sel : Word} {f : FieldInputs k}
    (h : ∀ i < n, (writeMask sel).getLsbD (pos + i) = sel.getLsbD j) (hpos : pos + n ≤ 16) :
    (updateCfg cfg sel f).extractLsb' pos n =
      if sel.getLsbD j then (packCfg f).extractLsb' pos n else cfg.extractLsb' pos n := by
  apply BitVec.eq_of_getLsbD_eq
  intro i hi
  rw [BitVec.getLsbD_extractLsb', updateCfg_getLsbD _ _ _ _ (by omega), h i hi]
  split <;> rw [BitVec.getLsbD_extractLsb']

theorem extract_updateCfg_bit {k pos j : Nat} {cfg sel : Word} {f : FieldInputs k}
    (h : (writeMask sel).getLsbD pos = sel.getLsbD j) (hpos : pos < 16) :
    (updateCfg cfg sel f).extractLsb' pos 1 =
      if sel.getLsbD j then (packCfg f).extractLsb' pos 1 else cfg.extractLsb' pos 1 :=
  extract_updateCfg (fun i hi => by rw [Nat.lt_one_iff.1 hi, Nat.add_zero, h]) hpos

/-- R83: each selected field is the input's, every other one the old word's. -/
theorem unpackCfg_updateCfg {k : Nat} (cfg sel : Word) (f : FieldInputs k) :
    let old := unpackCfg cfg
    let new := truncCfg f
    unpackCfg (updateCfg cfg sel f) =
      { fc  := if sel.getLsbD 0 then new.fc else old.fc
        me  := if sel.getLsbD 1 then new.me else old.me
        pol := if sel.getLsbD 2 then new.pol else old.pol
        l   := if sel.getLsbD 3 then new.l else old.l
        fl  := if sel.getLsbD 4 then new.fl else old.fl
        fh  := if sel.getLsbD 5 then new.fh else old.fh
        crf := if sel.getLsbD 6 then new.crf else old.crf
        ovf := if sel.getLsbD 7 then new.ovf else old.ovf
        m   := if sel.getLsbD 8 then new.m else old.m
        ct  := if sel.getLsbD 9 then new.ct else old.ct
        rn  := if sel.getLsbD 10 then new.rn else old.rn } := by
  intro old new
  have bit (i : Nat) (h : i < 16) := writeMask_getLsbD sel i h
  simp only [new, old, ← unpackCfg_packCfg f]
  unfold unpackCfg
  congr 1
  · exact extract_updateCfg (fun i hi => by interval_cases i <;> exact bit _ (by decide)) (by decide)
  · exact extract_updateCfg_bit (bit 2 (by decide)) (by decide)
  · exact extract_updateCfg_bit (bit 3 (by decide)) (by decide)
  · exact extract_updateCfg_bit (bit 4 (by decide)) (by decide)
  · exact extract_updateCfg_bit (bit 5 (by decide)) (by decide)
  · exact extract_updateCfg_bit (bit 6 (by decide)) (by decide)
  · exact extract_updateCfg_bit (bit 7 (by decide)) (by decide)
  · exact extract_updateCfg_bit (bit 8 (by decide)) (by decide)
  · exact extract_updateCfg (fun i hi => by interval_cases i <;> exact bit _ (by decide)) (by decide)
  · exact extract_updateCfg_bit (bit 11 (by decide)) (by decide)
  · exact extract_updateCfg (fun i hi => by interval_cases i <;> exact bit _ (by decide)) (by decide)

/-- Settles O41: the new word's fields, with each truncated input by arithmetic. -/
theorem setConfigReplacesSelectedFields : Obligations.SetConfigReplacesSelectedFields := by
  unfold Obligations.SetConfigReplacesSelectedFields
  intro s sel f
  refine ⟨updateCfg s.softCfg sel (fieldInputs s.params f), rfl, rfl, rfl, ?_⟩
  rw [unpackCfg_updateCfg]
  simp only [truncCfg, fieldInputs, fieldInput_setWidth]

end Sys2Proof.Machine
end

section
/-! What the transport calls neither look at nor write (42_session.md R82, R92; 70_reset_and_hazards.md R117): an update
of `sess`, or a response, comes to the same before and after a sequence of calls. So `sess` gates no command, and BEGIN
equals the commands it is made of, which differ from it by their responses. -/
namespace Sys2Proof.Machine

/-- An update that a sequence of transport calls neither looks at nor writes. -/
structure Inert (f : State → State) : Prop where
  params : ∀ s, (f s).params = s.params
  devAddr : ∀ s, (f s).devAddr = s.devAddr
  draws : ∀ s, (f s).draws = s.draws
  answer : ∀ s k, (f s).answer k = s.answer k
  afterCalls : ∀ s evs, (f s).afterCalls evs = f (s.afterCalls evs)
  takeDraws : ∀ s n, (f s).takeDraws n = f (s.takeDraws n)

theorem inert_setSess (v : SessState) : Inert (State.setSess · v) :=
  ⟨fun _ => rfl, fun _ => rfl, fun _ => rfl, fun _ _ => rfl, fun _ _ => rfl, fun _ _ => rfl⟩

theorem inert_returnWith (r : Response) : Inert (State.returnWith · r) :=
  ⟨fun _ => rfl, fun _ => rfl, fun _ => rfl, fun _ _ => rfl, fun _ _ => rfl, fun _ _ => rfl⟩

/-- `r` with its state updated by `f`, however it ends. -/
def BusResult.mapState {α : Type} (f : State → State) (r : BusResult α) : BusResult α :=
  match r with
  | .done v s => .done v (f s)
  | .commError s => .commError (f s)
  | .faulted m s => .faulted m (f s)

/-- An update before a sequence comes to the same as after it where this holds of each part of the sequence. -/
theorem andThen_mapState {α β : Type} {f : State → State} {k : α → State → BusResult β} (r : BusResult α)
    (hk : ∀ v t, k v (f t) = (k v t).mapState f) : (r.mapState f).andThen k = (r.andThen k).mapState f := by
  cases r with
  | done v t => exact hk v t
  | commError t => rfl
  | faulted m t => rfl

section
variable {f : State → State} (hf : Inert f)
include hf

/-! ## The sequences of transport calls -/

theorem call_inert (p : Primitive) (ev : Answer → Event) (s : State) :
    call p ev (f s) = (call p ev s).mapState f := by
  rw [call_eq, call_eq, hf.answer, hf.afterCalls, hf.afterCalls]
  split <;> rfl

theorem transaction_inert (a : BusAddr) (bs : List Byte) (s : State) :
    transaction a bs (f s) = (transaction a bs s).mapState f := by
  unfold transaction tBegin tWrite tEnd
  rw [call_inert hf]
  refine andThen_mapState _ fun _ t => ?_
  rw [call_inert hf]
  refine andThen_mapState _ fun _ u => ?_
  rw [call_inert hf]
  refine andThen_mapState _ fun x v => ?_
  split <;> rfl

theorem readLoop_inert (n : Nat) (s : State) : readLoop n (f s) = (readLoop n s).mapState f := by
  induction n generalizing s with
  | zero => rfl
  | succ n ih =>
    unfold readLoop tAvail tReadByte
    rw [call_inert hf]
    refine andThen_mapState _ fun x t => ?_
    split
    · rfl
    · rw [call_inert hf]
      refine andThen_mapState _ fun y u => ?_
      rw [ih]
      exact andThen_mapState _ fun _ _ => rfl

theorem memWrite_inert (reg : Byte) (bs : List Byte) (s : State) :
    memWrite reg bs (f s) = (memWrite reg bs s).mapState f := by
  unfold memWrite
  rw [hf.devAddr, hf.params]
  cases s.devAddr with
  | none => rfl
  | some a => exact transaction_inert hf a _ s

theorem drawn_inert (s : State) (n : Nat) : (f s).drawn n = s.drawn n := by
  rw [State.drawn, State.drawn, hf.draws]

theorem memRead_inert (reg n : Byte) (s : State) : memRead reg n (f s) = (memRead reg n s).mapState f := by
  unfold memRead tRequest
  rw [hf.devAddr, hf.params]
  cases s.devAddr with
  | none => rfl
  | some a =>
    simp only
    rw [transaction_inert hf]
    refine andThen_mapState _ fun _ t => ?_
    rw [call_inert hf]
    refine andThen_mapState _ fun _ u => ?_
    rw [hf.takeDraws, readLoop_inert hf, drawn_inert hf]
    refine andThen_mapState _ fun got v => ?_
    rw [hf.params]
    split <;> rfl

theorem writeReg16_inert (r : DeviceReg) (w : Word) (s : State) :
    writeReg16 r w (f s) = (writeReg16 r w s).mapState f := by
  unfold writeReg16
  rw [hf.params, memWrite_inert hf]

theorem readReg16_inert (r : DeviceReg) (s : State) : readReg16 r (f s) = (readReg16 r s).mapState f := by
  unfold readReg16
  rw [memRead_inert hf]
  exact andThen_mapState _ fun _ t => by rw [hf.params]; rfl

end

/-! ## The session state gates nothing -/

/-- Both answer a next state, and the two states differ in `sess` at most. -/
def SameButSess (r r' : Result) : Prop := ∃ t v, r = .next t ∧ r' = .next (t.setSess v)

theorem finish_sameButSess {α : Type} {onError : State → State} {k : α → State → Result} {u : SessState}
    (x : BusResult α) (herr : ∀ t, ∃ v, onError (t.setSess u) = (onError t).setSess v)
    (hk : ∀ z t, SameButSess (k z t) (k z (t.setSess u))) :
    SameButSess (x.finish onError k) ((x.mapState (State.setSess · u)).finish onError k) := by
  cases x with
  | done z t => exact hk z t
  | commError t =>
    obtain ⟨v, hv⟩ := herr t
    exact ⟨_, v, rfl, by simp only [BusResult.mapState, BusResult.finish, hv]; rfl⟩
  | faulted m t => exact ⟨_, u, rfl, rfl⟩

/-- A command that only accesses a register and responds. -/
theorem finish_returnOk_sameButSess {α : Type} {u : SessState} (x : BusResult α) (payload : α → Params → Payload) :
    SameButSess (x.finish id fun z t => returnOk t (payload z t.params))
      ((x.mapState (State.setSess · u)).finish id fun z t => returnOk t (payload z t.params)) :=
  finish_sameButSess x (fun _ => ⟨u, rfl⟩) fun _ _ => ⟨_, u, rfl, rfl⟩

theorem codec_sameButSess {i : Instr} (hi : IsCodec i = true) (s : State) (u : SessState) :
    SameButSess (exec i s) (exec i (s.setSess u)) := by
  cases i <;> simp only [IsCodec, Bool.false_eq_true] at hi <;> exact ⟨_, u, rfl, rfl⟩

theorem IsGetter.sameButSess {c : Instr} {r : DeviceReg} {payload : Params → Word → Payload}
    (hc : IsGetter c r payload) (s : State) (u : SessState) : SameButSess (exec c s) (exec c (s.setSess u)) := by
  rw [hc, hc, readReg16_inert (inert_setSess u)]
  exact finish_returnOk_sameButSess _ fun w p => payload p w

theorem setLimit_sameButSess (reg : DeviceReg) (r e : Word) (s : State) (u : SessState) :
    SameButSess (setLimit reg r e s) (setLimit reg r e (s.setSess u)) := by
  rw [setLimit, setLimit, State.setSess_params, writeReg16_inert (inert_setSess u)]
  exact finish_returnOk_sameButSess _ fun _ _ => .none

theorem plainAccess_sameButSess {i : Instr} (hi : IsPlainAccess i = true) (s : State) (u : SessState) :
    SameButSess (exec i s) (exec i (s.setSess u)) := by
  cases i <;> simp only [IsPlainAccess, Bool.false_eq_true] at hi
  case writeRegister reg data =>
    simp only [exec, execWriteRegister, memWrite_inert (inert_setSess u)]
    exact finish_returnOk_sameButSess _ fun _ _ => .none
  case readRegister reg len =>
    simp only [exec, execReadRegister, memRead_inert (inert_setSess u)]
    exact finish_returnOk_sameButSess _ fun buf _ => .data buf
  case readConfig => exact readConfig_isGetter.sameButSess s u
  case getIlluminance => exact getIlluminance_isGetter.sameButSess s u
  case getHighLimit => exact getHighLimit_isGetter.sameButSess s u
  case getLowLimit => exact getLowLimit_isGetter.sameButSess s u
  case setHighLimit r e => exact setLimit_sameButSess .highLimit r e s u
  case setLowLimit r e => exact setLimit_sameButSess .lowLimit r e s u

/-- R80: what CHECK_COMMS writes over `sess` depends on it; nothing else does. -/
theorem checkComms_sameButSess (s : State) (u : SessState) :
    SameButSess (exec .checkComms s) (exec .checkComms (s.setSess u)) := by
  simp only [exec, execCheckComms, readReg16_inert (inert_setSess u), advanceVerified_eq]
  refine finish_sameButSess _ (fun _ => ⟨.addressed, rfl⟩) fun w t => ?_
  rw [State.setSess_params]
  split
  · exact ⟨_, .addressed, rfl, rfl⟩
  · exact ⟨_, _, rfl, rfl⟩

/-- R81: likewise APPLY_CONFIG. -/
theorem applyConfig_sameButSess (s : State) (u : SessState) :
    SameButSess (exec .applyConfig s) (exec .applyConfig (s.setSess u)) := by
  simp only [exec, execApplyConfig, State.setSess_softCfg, writeReg16_inert (inert_setSess u), advanceConfigured_eq]
  exact finish_sameButSess _ (fun t => ⟨_, by rw [dropConfigured_eq, dropConfigured_eq]; rfl⟩)
    fun _ t => ⟨_, _, rfl, rfl⟩

theorem exec_sameButSess (i : Instr) (s : State) (u : SessState) :
    SameButSess (exec i s) (exec i (s.setSess u)) := by
  obtain hi | hi | ⟨raw, rfl⟩ | rfl | rfl | ⟨raw, rfl⟩ | ⟨sel, f, rfl⟩ := instr_kinds i
  · exact codec_sameButSess hi s u
  · exact plainAccess_sameButSess hi s u
  · exact ⟨_, .addressed, rfl, rfl⟩
  · exact checkComms_sameButSess s u
  · exact applyConfig_sameButSess s u
  · obtain ⟨b, t, v, res, -, he, -⟩ := beginSession_ends s raw
    exact ⟨_, v, he, he⟩
  · exact ⟨_, u, rfl, rfl⟩

/-- Settles O58: each kind of command, run after an update of `sess`, leaves a state that differs in `sess` at most. -/
theorem sessionStateGatesNothing : Obligations.SessionStateGatesNothing := by
  unfold Obligations.SessionStateGatesNothing
  intro i s t t' u he he'
  obtain ⟨t₀, v, h, h'⟩ := exec_sameButSess i s u
  cases he.symm.trans h
  cases he'.symm.trans h'
  rfl

/-! ## BEGIN as a sequence of commands -/

theorem setSess_of_sess {s : State} {v : SessState} (h : s.sess = v) : s.setSess v = s := by
  subst h
  rfl

/-- From `Verified`, APPLY_CONFIG ends as BEGIN's push does: `Configured` if the write goes through, else `Verified`. -/
theorem applyConfig_of_verified {s : State} {a : BusAddr} (ha : s.devAddr = some a) (hs : s.sess = .verified) :
    exec .applyConfig s = (writeReg16 .configuration s.softCfg s).finish id
      fun _ u => returnOk (u.setSess .configured) .none := by
  have hruns := runs_writeReg16 (r := .configuration) (w := s.softCfg) ha
  cases hwrite : writeReg16 .configuration s.softCfg s <;> rw [hwrite] at hruns
  case done z t =>
    rw [exec_applyConfig_done hwrite, if_pos (.inl ((trace_sess hruns).trans hs))]
    rfl
  case commError t =>
    have ht : t.sess = .verified := (trace_sess hruns).trans hs
    rw [exec_applyConfig_commError hwrite, ht, if_neg nofun, setSess_of_sess ht]
    rfl
  case faulted m t => exact hruns.elim

/-- APPLY_CONFIG after two more responses `r` and `r'` does the same. -/
theorem applyConfig_returnWith {s : State} {a : BusAddr} (ha : s.devAddr = some a) (r r' : Response) :
    ∃ (u : State) (res : Response), exec .applyConfig s = .next (u.returnWith res) ∧
      exec .applyConfig ((s.returnWith r).returnWith r') =
        .next (((u.returnWith r).returnWith r').returnWith res) := by
  have hruns := runs_writeReg16 (r := .configuration) (w := s.softCfg) ha
  have hinert := writeReg16_inert (inert_returnWith r') .configuration s.softCfg (s.returnWith r)
  rw [writeReg16_inert (inert_returnWith r)] at hinert
  cases hwrite : writeReg16 .configuration s.softCfg s <;> rw [hwrite] at hruns hinert
  case done z t => exact ⟨_, _, exec_applyConfig_done hwrite, exec_applyConfig_done hinert⟩
  case commError t => exact ⟨_, _, exec_applyConfig_commError hwrite, exec_applyConfig_commError hinert⟩
  case faulted m t => exact hruns.elim

/-- BEGIN ends as CHECK_COMMS after SET_ADDRESS where that fails, and else goes on as APPLY_CONFIG (R82). -/
theorem begin_eq_checkComms (s : State) (raw : Byte) :
    ∃ (u : State) (res : Response), exec .checkComms ((s.address raw).returnWith ⟨.ok, .none⟩) =
        .next ((u.returnWith ⟨.ok, .none⟩).returnWith res) ∧
      ((res.status ≠ .ok ∧ exec (.beginSession raw) s = .next (u.returnWith res)) ∨
        (res.status = .ok ∧ (∃ a, u.devAddr = some a) ∧ exec (.beginSession raw) s = exec .applyConfig u)) := by
  have hruns := runs_readReg16 (r := .manufacturerId) (s := s.address raw) (a := normAddr s.params raw) rfl
  have hinert := readReg16_inert (inert_returnWith ⟨.ok, .none⟩) .manufacturerId (s.address raw)
  cases hread : readReg16 .manufacturerId (s.address raw) <;> rw [hread] at hruns hinert
  case commError t =>
    have hsame := exec_begin_commError hread
    rw [← setSess_of_sess (trace_sess hruns)] at hsame
    exact ⟨t.setSess .addressed, _, exec_checkComms_commError hinert, .inl ⟨nofun, hsame⟩⟩
  case faulted m t => exact hruns.elim
  case done w t =>
    by_cases hw : w = t.params.mfrIdExpected
    · have ht : t.devAddr = some (normAddr s.params raw) := by obtain ⟨evs, d, rfl, -⟩ := hruns; rfl
      have hcheck := exec_checkComms_match hinert hw
      rw [if_pos (show (t.returnWith ⟨.ok, .none⟩).sess = .addressed from trace_sess hruns)] at hcheck
      refine ⟨t.setSess .verified, _, hcheck, .inr ⟨rfl, ⟨_, ht⟩, ?_⟩⟩
      rw [exec_begin_match hread hw, applyConfig_of_verified (s := t.setSess .verified) ht rfl]
      rfl
    · have hsame := exec_begin_mismatch hread hw
      rw [← setSess_of_sess (trace_sess hruns)] at hsame
      exact ⟨t.setSess .addressed, _, exec_checkComms_mismatch hinert hw, .inl ⟨nofun, hsame⟩⟩

/-- Settles O40: the commands of the sequence run in states with more responses, which no call looks at or writes; the
last status is that of the last command run. -/
theorem beginEqualsCommandSequence : Obligations.BeginEqualsCommandSequence := by
  unfold Obligations.BeginEqualsCommandSequence
  intro s t raw he
  obtain ⟨u, res, hcheck, ⟨hst, hbegin⟩ | ⟨hst, ⟨a, ha⟩, hbegin⟩⟩ := begin_eq_checkComms s raw
  · cases he.symm.trans hbegin
    refine ⟨_, _, (u.returnWith ⟨.ok, .none⟩).returnWith res, rfl, hcheck, ?_, ?_, rfl⟩
    · rw [lastStatus_returnWith, if_neg (hst <| Option.some.inj ·)]
    · rw [lastStatus_returnWith, lastStatus_returnWith]
  · obtain ⟨v, res', happly, hsequence⟩ := applyConfig_returnWith ha ⟨.ok, .none⟩ res
    cases he.symm.trans (hbegin.trans happly)
    refine ⟨_, _, ((v.returnWith ⟨.ok, .none⟩).returnWith res).returnWith res', rfl, hcheck, ?_, ?_, rfl⟩
    · rw [lastStatus_returnWith, if_pos (congrArg some hst)]
      exact hsequence
    · rw [lastStatus_returnWith, lastStatus_returnWith]

end Sys2Proof.Machine
end

section
/-! How a command ends (60_exceptions.md R93 to R96): the marks after which the block has no move, the one response of a
command that does not fault, and which of its calls can have failed. -/
namespace Sys2Proof.Machine

/-! ## The marks -/

theorem step_of_fault {s : State} {f : ModelFault} (h : s.fault = some f) : step s = .fault (.marked f) := by
  simp only [step, noMove, h]

theorem step_of_refused {s : State} (hfault : s.fault = none) (hrefused : s.refused = true) :
    step s = .refused .marked := by
  simp only [step, noMove, hfault, hrefused, if_true]

theorem step_undecodable {s : State} {bs : List Byte} {later : List (List Byte)} {e : DecodeError} (hs : s.Ready)
    (hport : s.port = bs :: later) (hdec : decode bs = .error e) : step s = .next s.refuse := by
  simp only [step, noMove_ready hs, fetch, hport, hdec]

/-- Settles O12: bytes that do not decode are refused, and presenting others leaves both marks as they are. -/
theorem refusalSetsMarkAndStops : Obligations.RefusalSetsMarkAndStops := by
  unfold Obligations.RefusalSetsMarkAndStops
  intro s bs later e hs hport hdec
  have hfault : s.fault = none := hs.1.1
  exact ⟨step_undecodable hs hport hdec, fun port => step_of_refused hfault rfl⟩

/-- Settles O13: the command is accepted and enters the model fault, which takes `busy` back to the 0 it had. -/
theorem unaddressedCommandFaultsAndStops : Obligations.UnaddressedCommandFaultsAndStops := by
  unfold Obligations.UnaddressedCommandFaultsAndStops
  intro s bs rest later i hs hport hdec hneeds hnone
  have hbusy : s.busy = false := hs.2
  have hnone' : (s.accept (remaining rest later)).devAddr = none := hnone
  refine ⟨_, ?_, rfl, fun port => step_of_fault rfl⟩
  rw [step_presented hs hport hdec, exec_unaddressed hneeds hnone', remaining_eq]
  simp only [State.enterFault, State.accept, hbusy]

/-! ## The response, and how the calls ended -/

section
variable {i : Instr} {s t : State} {a : Option BusAddr} {evs : List Event} {d : Nat} {v : SessState} {w : Word}
  {res : Response}

theorem Ran.responses_eq (h : Ran i s t a evs d v w res) : t.responses = s.responses ++ [res] := by
  rw [h.state]
  rfl

theorem Ran.lastStatus_eq (h : Ran i s t a evs d v w res) : t.lastStatus = some res.status := by
  rw [h.state, lastStatus_returnWith]

/-- A command's calls, by its status: the last of them failed under COMM_ERROR, none of them otherwise (R94). -/
theorem Ran.calls_ended (h : Ran i s t a evs d v w res) :
    (res.status = .commError ∧ Broken s.params.shortReadPolicy evs) ∨
      (res.status ≠ .commError ∧ Clean s.params.shortReadPolicy evs) := by
  obtain ⟨hok, -, hclean⟩ | ⟨rfl, -, hclean⟩ | ⟨rfl, -, hbroken⟩ := h.ended
  · exact .inr ⟨by simp [hok], hclean⟩
  · exact .inr ⟨nofun, hclean⟩
  · exact .inl ⟨rfl, hbroken⟩

end

/-- Settles O54: the three ends of a command that runs, each with its own status and payload. -/
theorem oneResponsePerCommand : Obligations.OneResponsePerCommand := by
  unfold Obligations.OneResponsePerCommand
  intro i s t he hran
  obtain ⟨hneeds, hnone, -⟩ | ⟨-, a, evs, d, v, w, res, h⟩ := exec_cases he
  · exact absurd ⟨hneeds, hnone⟩ hran
  refine ⟨res, h.responses_eq, ?_⟩
  obtain ⟨hok, hkind, -⟩ | ⟨rfl, hcmd, -⟩ | ⟨rfl, hcmd, -⟩ := h.ended
  · simp [hok, hkind]
  · simp [hcmd]
  · simp [hcmd]

/-! ## The failing call -/

theorem clean_iff_not_exists {p : ShortReadPolicy} {evs : List Event} :
    Clean p evs ↔ ¬ ∃ e ∈ evs, e.raises p = true := by
  simp [Clean]

theorem clean_dropLast {p : ShortReadPolicy} {evs : List Event} (h : Clean p evs) : Clean p evs.dropLast :=
  fun e he => h e (List.mem_of_mem_dropLast he)

theorem broken_dropLast {p : ShortReadPolicy} {evs : List Event} (h : Broken p evs) : Clean p evs.dropLast := by
  obtain ⟨es, e, rfl, hclean, -⟩ := h
  rwa [List.dropLast_concat]

theorem broken_exists {p : ShortReadPolicy} {evs : List Event} (h : Broken p evs) :
    ∃ e ∈ evs, e.raises p = true := by
  obtain ⟨es, e, rfl, -, hraises⟩ := h
  exact ⟨e, List.mem_concat_self, hraises⟩

/-- Settles O56: calls that broke have a failing last one, and clean calls have none, under either policy. -/
theorem commErrorExactlyOnFailedCall : Obligations.CommErrorExactlyOnFailedCall := by
  unfold Obligations.CommErrorExactlyOnFailedCall
  intro i s t he hran fails
  obtain ⟨hneeds, hnone, -⟩ | ⟨-, a, evs, d, v, w, res, h⟩ := exec_cases he
  · exact absurd ⟨hneeds, hnone⟩ hran
  refine ⟨evs, h.appends.hist, ?_⟩
  rw [h.lastStatus_eq, Option.some_inj]
  obtain ⟨hst, hbroken⟩ | ⟨hst, hclean⟩ := h.calls_ended
  · exact ⟨broken_dropLast hbroken, iff_of_true hst (broken_exists hbroken)⟩
  · exact ⟨clean_dropLast hclean, iff_of_false hst (clean_iff_not_exists.1 hclean)⟩

end Sys2Proof.Machine
end

section
/-! The reset values (70_reset_and_hazards.md R108), and the command that meets a busy block (R111). -/
namespace Sys2Proof.Machine

/-- Settles O1: the rows of R108's table are the fields of `State.resetWith`; `soft_cfg` is the canonical word itself,
so its field tuple is that word's. -/
theorem resetLeavesSpecState : Obligations.ResetLeavesSpecState := by
  unfold Obligations.ResetLeavesSpecState
  refine ⟨rfl, fun p => ?_⟩
  have hsoft : (State.resetWith p).softCfg = p.softConfigReset := rfl
  exact ⟨rfl, rfl, hsoft, congrArg unpackCfg hsoft, rfl, rfl, rfl, rfl⟩

theorem noMove_of_busy {s : State} {bs : List Byte} {later : List (List Byte)} (hs : s.Unmarked)
    (hbusy : s.busy = true) (hport : s.port = bs :: later) : noMove s = some (.fault .presentedWhileBusy) := by
  obtain ⟨hfault, hrefused⟩ := hs
  simp [noMove, hfault, hrefused, hbusy, hport]

/-- Settles O14: with no mark to stop it first, a busy block stops at the presented command and fetches nothing. -/
theorem commandWhileBusyHasNoMove : Obligations.CommandWhileBusyHasNoMove := by
  unfold Obligations.CommandWhileBusyHasNoMove
  intro s bs later hs hbusy hport
  simp only [step, noMove_of_busy hs hbusy hport]

end Sys2Proof.Machine
end

section
/-! The spec's own serialised commands (95_test_vectors.md sections 2 to 8): what decodes is a command's encoding. -/
namespace Sys2Proof

theorem decode_of_eq_encode {bs rest : List Byte} {i : Instr} (h : bs = encode i ++ rest) (hi : i.Serialisable) :
    decode bs = .ok (i, rest) :=
  decode_ok_iff.2 ⟨h, hi⟩

/-- R56 for an opcode of format RF, whose two words take four bytes. -/
theorem decode_setHighLimit_short {bs : List Byte} (h : bs.length < 4) : decode (0x28 :: bs) = .error .truncated :=
  withOperands_error.2 ⟨((readPair_needs readWord16_needs readWord16_needs).1 bs).2 h, rfl⟩

/-- Settles O9: each vector that decodes is its command's encoding, with a byte after it in the case of
DECODE_RESULT; of the two refusals one lacks a byte of format RF and the other's opcode has no row. -/
theorem specWordsDecode : Obligations.SpecWordsDecode := by
  unfold Obligations.SpecWordsDecode
  have hunassigned : ∀ f, ((0x06 : Byte), f) ∉ opcodeMap := fun f => by cases f <;> decide
  have hdata : [(0xC0 : Byte), 0x00].length < 256 := by decide
  exact ⟨decode_of_eq_encode rfl trivial, decode_of_eq_encode rfl hdata, decode_of_eq_encode rfl trivial,
    decode_of_eq_encode rfl trivial, decode_of_eq_encode rfl trivial, decode_of_eq_encode rfl trivial,
    decode_of_eq_encode rfl trivial, decode_setHighLimit_short (by decide), decode_unassigned hunassigned []⟩

end Sys2Proof
end

section
/-! The Register Codec commands are functions of the parameters and their operands (40_codec.md). -/
namespace Sys2Proof.Machine

/-- Settles O24: the state enters a codec command's payload through its parameters alone. -/
theorem codecIsPure : Obligations.CodecIsPure := by
  unfold Obligations.CodecIsPure
  intro i s s' hi hp
  cases i with
  | encodeConfig f => exact ⟨_, exec_encodeConfig f s, hp ▸ exec_encodeConfig f s'⟩
  | decodeConfig b0 b1 => exact ⟨_, exec_decodeConfig b0 b1 s, hp ▸ exec_decodeConfig b0 b1 s'⟩
  | encodeResult r e => exact ⟨_, exec_encodeResult r e s, hp ▸ exec_encodeResult r e s'⟩
  | decodeResult b0 b1 => exact ⟨_, exec_decodeResult b0 b1 s, hp ▸ exec_decodeResult b0 b1 s'⟩
  | illuminance r e => exact ⟨_, exec_illuminance r e s, hp ▸ exec_illuminance r e s'⟩
  | _ => cases hi

end Sys2Proof.Machine
end
